-- ==== Sys2Proof/Word.lean ====
section
/-!
DEFINITION. The block's word types (R10, R11 of spec/00_scope.md): every value is an unsigned bit vector, bits numbered
from 0 at the least significant.
-/

namespace Sys2Proof

/-- One byte, `BYTE_W = 8` bits (R7). -/
abbrev Byte := BitVec 8

/-- A 16-bit value: a CRC (`CRC_W`), a sensor word, the status word (R7, R83). -/
abbrev Word16 := BitVec 16

/-- The 32 bits of the accumulator and of the delimiter (`ACC_W`, R7, R33). -/
abbrev Word32 := BitVec 32

end Sys2Proof
end

