-- ==== Sys2Proof/Config.lean ====
section
/-!
DEFINITION. The constants of the block (R7 of spec/00_scope.md): fixed when the block is built, written by no operation
(R45 of spec/10_state.md). Three of them have no value in the spec (decision D23) and have no body here.
-/

namespace Sys2Proof

/-- `FRAME_LEN`: the bytes of a telemetry frame (R7). -/
abbrev frameLen : Nat := 24

/-- `CONTENT_LEN`: the bytes of a telemetry frame the CRC covers (R7). -/
abbrev contentLen : Nat := 18

/-- `CRC_LEN` (R7). -/
abbrev crcLen : Nat := 2

/-- `DELIM_LEN` (R7). -/
abbrev delimLen : Nat := 4

/-- `N_SENSORS` (R7). -/
abbrev nSensors : Nat := 8

/-- `HEADER_LEN` (R7). -/
abbrev headerLen : Nat := 4

/-- `MOTOR_FRAME_LEN` (R7, R85). -/
abbrev motorFrameLen : Nat := 8

/-- `PIXEL_FRAME_LEN` (R7, R86). -/
abbrev pixelFrameLen : Nat := 13

/-- `POLY_R`, the reflected polynomial (R7). -/
abbrev polyR : Word16 := 0xA001#16

/-- `POLY_M`, the MSB-first polynomial (R7). -/
abbrev polyM : Word16 := 0x8005#16

/-- `CRC_SEED` (R7). -/
abbrev crcSeed : Word16 := 0x0000#16

/-- `MOTOR_OPCODE` (R7). -/
abbrev motorOpcode : Byte := 0x43#8

/-- `MOTOR_BRAKE` (R7). -/
abbrev motorBrakeSel : Nat := 0

/-- `MOTOR_STOP` (R7). -/
abbrev motorStopSel : Nat := 1

/-- `MOTOR_CCW` (R7). -/
abbrev motorCcwSel : Nat := 2

/-- `MOTOR_CW` (R7). -/
abbrev motorCwSel : Nat := 3

/-- The four bytes of `HEADER`, in transmit order (R7). -/
structure Header where
  b0 : Byte
  b1 : Byte
  b2 : Byte
  b3 : Byte
deriving DecidableEq, Repr, Inhabited

/-- `HEADER[0..3]`, the first transmitted first. -/
def Header.bytes (h : Header) : List Byte := [h.b0, h.b1, h.b2, h.b3]

/-- The OPEN parameters of R7 (decision D23): a claim about the functions of this model is made for every value of them. -/
structure Params where
  /-- `DELIM`; bits 31 to 24 are the byte that arrives first (R9). Any value is legal. -/
  delim       : Word32
  /-- `HEADER`. Any value is legal. -/
  header      : Header
  /-- `PIXEL_OPCODE`; never 0x43 (R95, constraint of D23). -/
  pixelOpcode : Byte
deriving DecidableEq, Repr

/-- The one constraint D23 lets a model assume: `PIXEL_OPCODE` differs from `MOTOR_OPCODE` (R95). -/
def Params.wf (p : Params) : Bool := p.pixelOpcode != motorOpcode

/-- `DELIM_B[0..3]`, in arrival order: the most significant byte first (R9). -/
def Params.delimBytes (p : Params) : List Byte :=
  [p.delim.extractLsb' 24 8, p.delim.extractLsb' 16 8, p.delim.extractLsb' 8 8, p.delim.extractLsb' 0 8]

namespace Config

/-- OPEN: the block's `DELIM` (D23; log entry 6). -/
opaque delim : Word32

/-- OPEN: the block's `HEADER` (D23; log entry 6). -/
opaque header : Header

/-- OPEN: which of the 255 legal values `PIXEL_OPCODE` has, counted upwards past 0x43 (D23; log entry 6). -/
opaque pixelOpcodeIndex : Fin 255

/-- The `k`-th of the 255 bytes other than 0x43: each of them for exactly one `k`. -/
def skipMotorOpcode (k : Fin 255) : Byte :=
  if k.val < 0x43 then BitVec.ofNat 8 k.val else BitVec.ofNat 8 (k.val + 1)

/-- The constants this block was built with. -/
def params : Params :=
  { delim := delim, header := header, pixelOpcode := skipMotorOpcode pixelOpcodeIndex }

end Config

end Sys2Proof
end

