-- ==== Sys2Proof/Machine/Crc16.lean ====
section
/-!
DEFINITION. The CRC-16 functions (R110 to R114 of spec/40_crc16.md). They are pure: the registers `CRCR` and `CRCM` belong
to the CRC unit's operations, and the validator and the encoder use `crc16r` privately (R169, R188).
-/

namespace Sys2Proof.Machine

/-- `f` applied `n` times. -/
def applyN {α : Type} (f : α → α) : Nat → α → α
  | 0, x => x
  | n + 1, x => applyN f n (f x)

/-- One of the eight iterations of R110: the low bit is tested before the logical shift right. -/
def crc16rBit (t : Word16) : Word16 :=
  if t.getLsbD 0 then (t >>> 1) ^^^ polyR else t >>> 1

/-- `crc16r_update(c, b)`, reflected, LSB first (R110). -/
def crc16rUpdate (c : Word16) (b : Byte) : Word16 :=
  applyN crc16rBit 8 (c ^^^ b.zeroExtend 16)

/-- `crc16r(s)`: seed 0, no final XOR (R112). The canonical CRC of the wire protocol (decision D4). -/
def crc16r (s : List Byte) : Word16 := s.foldl crc16rUpdate crcSeed

/-- One of the eight iterations of R113: bit 15 is tested before the shift left. -/
def crc16mBit (t : Word16) : Word16 :=
  if t.getLsbD 15 then (t <<< 1) ^^^ polyM else t <<< 1

/-- `crc16m_update(c, b)`, MSB first (R113; its body is the spec's from general knowledge, log entry 20). -/
def crc16mUpdate (c : Word16) (b : Byte) : Word16 :=
  applyN crc16mBit 8 (c ^^^ (b.zeroExtend 16 <<< 8))

/-- `crc16m(s)`: seed 0, no final XOR (R114). -/
def crc16m (s : List Byte) : Word16 := s.foldl crc16mUpdate crcSeed

end Sys2Proof.Machine
end

