-- ==== Sys2Proof/Machine/Operands.lean ====
section
/-!
DEFINITION. Operand assembly (R90 to R94 of spec/30_encoding.md) and the byte order of packed ports and words (R47, R48 of
spec/10_state.md).
-/

namespace Sys2Proof.Machine

/-- `le16(lo, hi) = hi << 8 | lo` (R90). -/
def le16 (lo hi : Byte) : Word16 := hi.zeroExtend 16 <<< 8 ||| lo.zeroExtend 16

/-- `c[7:0]`, sent first (R91). -/
def lowByte (c : Word16) : Byte := c.extractLsb' 0 8

/-- `c[15:8]`, sent second (R91). -/
def highByte (c : Word16) : Byte := c.extractLsb' 8 8

/-- A `TX.PIXEL` operand of any width reduced modulo 256 (R92). -/
def truncByte (v : Int) : Byte := BitVec.ofInt 8 v

/-- The parameter byte of a motor selector, `zext_8(sel)` (R94); applied to selectors below 4 only. -/
def selByte (sel : Nat) : Byte := BitVec.ofNat 8 sel

/-- The `n` low bytes of a number, byte `i` in bits `8i+7` to `8i` (R47's order of a packed port). -/
def bytesOfNat : Nat → Nat → List Byte
  | 0, _ => []
  | n + 1, w => BitVec.ofNat 8 w :: bytesOfNat n (w / 256)

/-- The number whose byte `i` is the list's byte `i`. -/
def natOfBytes : List Byte → Nat
  | [] => 0
  | b :: bs => b.toNat + 256 * natOfBytes bs

/-- The 24 bytes of the port `val_frame` (R47). -/
def valFrameBytes (v : BitVec 192) : List Byte := bytesOfNat frameLen v.toNat

/-- 24 bytes on a 192-bit port, byte `i` in bits `8i+7` to `8i` (R47, R48). -/
def packBytes (s : List Byte) : BitVec 192 := BitVec.ofNat 192 (natOfBytes s)

/-- Sixteen-bit words as one number, word `k` in bits `16k+15` to `16k`. -/
def natOfWords : List Word16 → Nat
  | [] => 0
  | w :: ws => w.toNat + 65536 * natOfWords ws

/-- Ten words on a 160-bit port, word `k` in bits `16k+15` to `16k` (R48). -/
def packWords (ws : List Word16) : BitVec 160 := BitVec.ofNat 160 (natOfWords ws)

end Sys2Proof.Machine
end

