-- ==== Sys2Proof/Machine/CommandFrame.lean ====
section
/-!
DEFINITION. The bytes of command frames (R84 to R87 of spec/30_encoding.md; R181, R183, R185 of spec/44_encoder.md).
-/

namespace Sys2Proof.Machine

/-- `command_frame(content)`: header, CRC of the content low byte first, content (R181). -/
def commandFrame (p : Params) (content : List Byte) : List Byte :=
  p.header.bytes ++ [lowByte (crc16r content), highByte (crc16r content)] ++ content

/-- `motor_frame(sel)` (R85, R182). -/
def motorFrame (p : Params) (sel : Nat) : List Byte :=
  commandFrame p [motorOpcode, selByte sel]

/-- `pixel_frame(start, count, red, green, blue, stripLength)` (R86, R185): the last argument is the first parameter byte
(R93). -/
def pixelFrame (p : Params) (start count red green blue stripLength : Byte) : List Byte :=
  commandFrame p [p.pixelOpcode, stripLength, start, count, red, green, blue]

end Sys2Proof.Machine
end

