-- ==== Sys2Proof/Syntax.lean ====
section
/-!
DEFINITION. The operations as syntax: one constructor for every row of spec/opcode_table.json, the operand ports that
feed them (R47 of spec/10_state.md), and the reasons for which a word is no operation.
-/

namespace Sys2Proof

/-- The rows of the opcode table: the eleven operations of R20 (spec/00_scope.md) and the six wire-format rows (R81, R86,
R87 of spec/30_encoding.md). An operand may be wider than its port: the meaning then refuses it (R94, R152, R164, R206) or
truncates it (R92), as the spec says. -/
inductive Instr where
  /-- `RST` (R230). -/
  | rst
  /-- `NOP` (R21). -/
  | nop
  /-- `CRC.INIT` (R115). -/
  | crcInit
  /-- `CRC.UPD b` (R116). -/
  | crcUpd (b : Byte)
  /-- `CRC.UPDM b` (R117). -/
  | crcUpdm (b : Byte)
  /-- `RX.CLR` (R138). -/
  | rxClr
  /-- `RX.BYTE b` (R131). -/
  | rxByte (b : Byte)
  /-- `SWP s` (R151); the table's row is the transaction of one pair, `swp [a, b]`. -/
  | swp (s : List Byte)
  /-- `VAL n` (R164), `n` in normalized order. -/
  | val (n : List Byte)
  /-- `TX.MOTOR sel` (R182). -/
  | txMotor (sel : Nat)
  /-- `TX.PIXEL start, count, red, green, blue, stripLength` (R186), in this order (R93). -/
  | txPixel (start count red green blue stripLength : Int)
  /-- The row `MOTOR.BRAKE`, a pseudo-operation for `TX.MOTOR 0` (R87, R102). -/
  | motorBrake
  /-- The row `MOTOR.STOP`, a pseudo-operation for `TX.MOTOR 1` (R87, R102). -/
  | motorStop
  /-- The row `MOTOR.CCW`, a pseudo-operation for `TX.MOTOR 2` (R87, R102). -/
  | motorCcw
  /-- The row `MOTOR.CW`, a pseudo-operation for `TX.MOTOR 3` (R87, R102). -/
  | motorCw
  /-- The row `FRAME.PIXEL`: the frame `TX.PIXEL` emits, its fields in frame order (R86). -/
  | framePixel (stripLength start count red green blue : Byte)
  /-- The row `FRAME.TELEMETRY`: one whole wire frame received, `RX.FRAME w` (R81, R104). -/
  | frameTelemetry (w : List Byte)
deriving DecidableEq, Repr

/-- The operand ports, sampled with the strobes (R47 of spec/10_state.md). -/
structure PortOperands where
  crcByte     : Byte
  rxByte      : Byte
  swpA        : Byte
  swpB        : Byte
  /-- Byte `i` of the frame in bits `8i+7` to `8i` (R47). -/
  valFrame    : BitVec 192
  txmSel      : BitVec 2
  txpStart    : Byte
  txpCount    : Byte
  txpRed      : Byte
  txpGreen    : Byte
  txpBlue     : Byte
  txpStriplen : Byte
deriving DecidableEq, Repr

/-- The input ports in one clock cycle: the reset, the strobes and `valid` inputs, the operands (R46, R47), and the two
`ready` inputs of the output channels (R48). -/
structure PortCycle where
  rst      : Bool
  crcInit  : Bool
  crcUpd   : Bool
  crcUpdm  : Bool
  rxClr    : Bool
  rxValid  : Bool
  swpValid : Bool
  valValid : Bool
  txmValid : Bool
  txpValid : Bool
  evReady  : Bool
  txReady  : Bool
  operands : PortOperands
deriving DecidableEq, Repr

/-- Every operand port at 0. -/
def PortOperands.zero : PortOperands := ⟨0, 0, 0, 0, 0, 0, 0, 0, 0, 0, 0, 0⟩

/-- A cycle in which the host presents nothing and takes nothing. -/
def PortCycle.idle : PortCycle :=
  { rst := false, crcInit := false, crcUpd := false, crcUpdm := false, rxClr := false, rxValid := false,
    swpValid := false, valValid := false, txmValid := false, txpValid := false, evReady := false, txReady := false,
    operands := PortOperands.zero }

/-- Why a word is no operation of the block. -/
inductive DecodeError where
  /-- No row of the opcode table has this many bits. -/
  | format
  /-- The word has bits above its row's bits and operands. -/
  | tooLong
  /-- Bits 15 to 10 of the first word, above the ten bits of `OPV` (R88), are not 0 (log entry 8). -/
  | reservedBits
  /-- The six bits above `txm_sel` in its byte are not 0: the port is two bits wide (R47, R94; log entry 8). -/
  | selectorBits
  /-- The first four bytes of a command frame are not `HEADER` (R84). -/
  | header
  /-- Byte 6 of a command frame is not the row's opcode (R95, R97 b). -/
  | opcode
  /-- The parameter of a motor frame is 4 or more (R97 a). -/
  | motorParameter
  /-- The CRC of a command frame is not that of its content (R84, R191). -/
  | checksum
  /-- The last four bytes of a telemetry frame are not `DELIM_B[0..3]` (R81). -/
  | delimiter
deriving DecidableEq, Repr

end Sys2Proof
end

