-- ==== Sys2Proof/WellFormed.lean ====
section
/-!
DEFINITION. Which instructions a word of the opcode table can express (R47 of spec/10_state.md; R81, R92, R94 of
spec/30_encoding.md; R152, R164, R206), and which the meanings accept.
-/

namespace Sys2Proof

/-- Whether a number fits an 8-bit operand port as it stands (R92). -/
def fitsByte (v : Int) : Bool := decide (0 ≤ v) && decide (v < 256)

/-- The domain of `SWP`: a positive even number of bytes (R150, R152). -/
def swapDomain (s : List Byte) : Bool := s.length % 2 == 0 && s.length != 0

/-- The last four bytes of a telemetry frame are the delimiter's, in arrival order (R81). -/
def endsInDelim (p : Params) (w : List Byte) : Bool := w.drop 20 == p.delimBytes

/-- The operand forms that have an effect (R206): all but the caller errors. A `TX.PIXEL` operand of any size is accepted
(R92); a frame is fed whatever its last four bytes are (R104). -/
def Instr.accepted : Instr → Bool
  | .rst => true
  | .nop => true
  | .crcInit => true
  | .crcUpd _ => true
  | .crcUpdm _ => true
  | .rxClr => true
  | .rxByte _ => true
  | .swp s => swapDomain s
  | .val n => n.length == frameLen
  | .txMotor sel => decide (sel < 4)
  | .txPixel _ _ _ _ _ _ => true
  | .motorBrake => true
  | .motorStop => true
  | .motorCcw => true
  | .motorCw => true
  | .framePixel _ _ _ _ _ _ => true
  | .frameTelemetry w => w.length == frameLen

/-- The operand forms a word (for `SWP s`, a sequence of words) of the opcode table expresses under the constants `p`. -/
def Instr.wf (p : Params) : Instr → Bool
  | .rst => true
  | .nop => true
  | .crcInit => true
  | .crcUpd _ => true
  | .crcUpdm _ => true
  | .rxClr => true
  | .rxByte _ => true
  | .swp s => swapDomain s
  | .val n => n.length == frameLen
  | .txMotor sel => decide (sel < 4)
  | .txPixel start count red green blue stripLength =>
    fitsByte start && fitsByte count && fitsByte red && fitsByte green && fitsByte blue && fitsByte stripLength
  | .motorBrake => true
  | .motorStop => true
  | .motorCcw => true
  | .motorCw => true
  | .framePixel _ _ _ _ _ _ => true
  | .frameTelemetry w => w.length == frameLen && endsInDelim p w

end Sys2Proof
end

