-- ==== Sys2Proof/Decode.lean ====
section
/-!
DEFINITION. From bits to operations: the operation vector (R88 of spec/30_encoding.md), the wire-format rows (R81, R85 to
R87), and after them the encoder. A word is a number whose bit 0 is the least significant bit of its first byte; what the
spec fixes of an operation's word is `OPV`, and where the operand ports stand after it is the model's (log entry 8).
-/

namespace Sys2Proof

open Sys2Proof.Machine

/-! ### The operation vector -/

/-- The CRC unit's part of R88: bit 8 alone, else bit 7 and bit 6. -/
def decodeCrcBits (opv : BitVec 10) (o : PortOperands) : List Instr :=
  if opv.getLsbD 8 then [.crcInit]
  else (if opv.getLsbD 7 then [.crcUpd o.crcByte] else []) ++ (if opv.getLsbD 6 then [.crcUpdm o.crcByte] else [])

/-- The synchronizer's part of R88: bit 5, else bit 4. -/
def decodeSynBits (opv : BitVec 10) (o : PortOperands) : List Instr :=
  if opv.getLsbD 5 then [.rxClr] else if opv.getLsbD 4 then [.rxByte o.rxByte] else []

/-- Bit 3: one pair of `SWP` (R88, R151). -/
def decodeSwpBit (opv : BitVec 10) (o : PortOperands) : List Instr :=
  if opv.getLsbD 3 then [.swp [o.swpA, o.swpB]] else []

/-- Bit 2: `VAL` (R88, R164). -/
def decodeValBit (opv : BitVec 10) (o : PortOperands) : List Instr :=
  if opv.getLsbD 2 then [.val (valFrameBytes o.valFrame)] else []

/-- The encoder's part of R88: bit 1, else bit 0 (the two are never both set, R47). -/
def decodeEncBits (opv : BitVec 10) (o : PortOperands) : List Instr :=
  if opv.getLsbD 1 then [.txMotor o.txmSel.toNat]
  else if opv.getLsbD 0 then
    [.txPixel o.txpStart.toNat o.txpCount.toNat o.txpRed.toNat o.txpGreen.toNat o.txpBlue.toNat o.txpStriplen.toNat]
  else []

/-- The operations of the five units that fire in one cycle, in descending bit order (R88). -/
def decodeUnits (opv : BitVec 10) (o : PortOperands) : List Instr :=
  decodeCrcBits opv o ++ decodeSynBits opv o ++ decodeSwpBit opv o ++ decodeValBit opv o ++ decodeEncBits opv o

/-- The operations of one cycle (R88): bit 9 is `RST` and nothing else; no bit at all is `NOP`. -/
def decodeOpv (opv : BitVec 10) (o : PortOperands) : List Instr :=
  if opv.getLsbD 9 then [.rst]
  else
    match decodeUnits opv o with
    | [] => [.nop]
    | is => is

/-! ### Words -/

/-- The bytes of an operation word: two of `OPV`, then the operand ports in the order of R47's table (log entry 8). -/
abbrev portWordLen : Nat := 37

/-- The operations a port word stands for. -/
def decodePortBytes (bs : List Byte) : Except DecodeError (List Instr) :=
  match bs with
  | v0 :: v1 :: crcByte :: rxByte :: swpA :: swpB :: rest =>
    match rest.drop 24 with
    | [sel, start, count, red, green, blue, striplen] =>
      if v1.toNat < 4 then
        if sel.toNat < 4 then
          .ok (decodeOpv (BitVec.ofNat 10 (v0.toNat + 256 * v1.toNat))
            { crcByte := crcByte, rxByte := rxByte, swpA := swpA, swpB := swpB,
              valFrame := packBytes (rest.take 24), txmSel := BitVec.ofNat 2 sel.toNat,
              txpStart := start, txpCount := count, txpRed := red, txpGreen := green, txpBlue := blue,
              txpStriplen := striplen })
        else .error .selectorBits
      else .error .reservedBits
    | _ => .error .format
  | _ => .error .format

/-- The pseudo-operation of a motor parameter (R87, R102). -/
def motorRow : Nat → Except DecodeError Instr
  | 0 => .ok .motorBrake
  | 1 => .ok .motorStop
  | 2 => .ok .motorCcw
  | 3 => .ok .motorCw
  | _ => .error .motorParameter

/-- The row of a motor command frame (R85, R87): header, opcode, parameter and CRC as the table fixes them. -/
def decodeMotorFrame (p : Params) (bs : List Byte) : Except DecodeError Instr :=
  match bs with
  | [h0, h1, h2, h3, lo, hi, op, par] =>
    if [h0, h1, h2, h3] = p.header.bytes then
      if op = motorOpcode then
        if le16 lo hi = crc16r [op, par] then motorRow par.toNat else .error .checksum
      else .error .opcode
    else .error .header
  | _ => .error .format

/-- The row `FRAME.PIXEL` (R86). -/
def decodePixelFrame (p : Params) (bs : List Byte) : Except DecodeError Instr :=
  match bs with
  | [h0, h1, h2, h3, lo, hi, op, stripLength, start, count, red, green, blue] =>
    if [h0, h1, h2, h3] = p.header.bytes then
      if op = p.pixelOpcode then
        if le16 lo hi = crc16r [op, stripLength, start, count, red, green, blue] then
          .ok (.framePixel stripLength start count red green blue)
        else .error .checksum
      else .error .opcode
    else .error .header
  | _ => .error .format

/-- The row `FRAME.TELEMETRY` (R81): 24 bytes that end in the delimiter. Its checksum is not looked at here: a frame with a
wrong one is legal on the wire and is the event `INVALID_FRAME` (R97 c). -/
def decodeTelemetryFrame (p : Params) (bs : List Byte) : Except DecodeError Instr :=
  if bs.length = frameLen then
    if endsInDelim p bs then .ok (.frameTelemetry bs) else .error .delimiter
  else .error .format

/-- One operation as a list, or the reason there is none. -/
def single : Except DecodeError Instr → Except DecodeError (List Instr)
  | .ok i => .ok [i]
  | .error e => .error e

/-- The operations a word of the opcode table stands for, under the constants `p`. `nbits` says which format the word has:
10 (16 in whole bytes) `OPV`, 64 a motor frame, 104 a pixel frame, 192 a telemetry frame. -/
def decodeWord (p : Params) (nbits w : Nat) : Except DecodeError (List Instr) :=
  if nbits = 10 ∨ nbits = 16 then
    if w < 256 ^ portWordLen then decodePortBytes (bytesOfNat portWordLen w) else .error .tooLong
  else if nbits = 64 then
    if w < 256 ^ motorFrameLen then single (decodeMotorFrame p (bytesOfNat motorFrameLen w)) else .error .tooLong
  else if nbits = 104 then
    if w < 256 ^ pixelFrameLen then single (decodePixelFrame p (bytesOfNat pixelFrameLen w)) else .error .tooLong
  else if nbits = 192 then
    if w < 256 ^ frameLen then single (decodeTelemetryFrame p (bytesOfNat frameLen w)) else .error .tooLong
  else .error .format

/-- The ONE instruction a table word stands for: none where the decoder refuses it, and none where several operations fire
together (R88; log entry 9). -/
def decodeTableWord (nbits w : Nat) : Option Instr :=
  match decodeWord Config.params nbits w with
  | .ok [i] => some i
  | _ => none

/-! ### The encoder -/

/-- The bytes of an operation word. -/
def portBytes (opv : BitVec 10) (o : PortOperands) : List Byte :=
  [BitVec.ofNat 8 opv.toNat, BitVec.ofNat 8 (opv.toNat / 256), o.crcByte, o.rxByte, o.swpA, o.swpB]
    ++ valFrameBytes o.valFrame
    ++ [o.txmSel.zeroExtend 8, o.txpStart, o.txpCount, o.txpRed, o.txpGreen, o.txpBlue, o.txpStriplen]

/-- The word of an operation: 16 table bits, the operand ports above them. -/
def portWord (opv : BitVec 10) (o : PortOperands) : Nat × Nat := (16, natOfBytes (portBytes opv o))

/-- The words of `SWP s`: one transaction a pair (R151). -/
def encodeSwap : List Byte → List (Nat × Nat)
  | a :: b :: rest => portWord 0x008#10 { PortOperands.zero with swpA := a, swpB := b } :: encodeSwap rest
  | _ => []

/-- The words of a well-formed instruction, each with the bit count of its table row. -/
def encode (p : Params) : Instr → List (Nat × Nat)
  | .rst => [portWord 0x200#10 PortOperands.zero]
  | .nop => [portWord 0x000#10 PortOperands.zero]
  | .crcInit => [portWord 0x100#10 PortOperands.zero]
  | .crcUpd b => [portWord 0x080#10 { PortOperands.zero with crcByte := b }]
  | .crcUpdm b => [portWord 0x040#10 { PortOperands.zero with crcByte := b }]
  | .rxClr => [portWord 0x020#10 PortOperands.zero]
  | .rxByte b => [portWord 0x010#10 { PortOperands.zero with rxByte := b }]
  | .swp s => encodeSwap s
  | .val n => [portWord 0x004#10 { PortOperands.zero with valFrame := packBytes n }]
  | .txMotor sel => [portWord 0x002#10 { PortOperands.zero with txmSel := BitVec.ofNat 2 sel }]
  | .txPixel start count red green blue stripLength =>
    [portWord 0x001#10 { PortOperands.zero with
      txpStart := truncByte start, txpCount := truncByte count, txpRed := truncByte red, txpGreen := truncByte green,
      txpBlue := truncByte blue, txpStriplen := truncByte stripLength }]
  | .motorBrake => [(64, natOfBytes (motorFrame p motorBrakeSel))]
  | .motorStop => [(64, natOfBytes (motorFrame p motorStopSel))]
  | .motorCcw => [(64, natOfBytes (motorFrame p motorCcwSel))]
  | .motorCw => [(64, natOfBytes (motorFrame p motorCwSel))]
  | .framePixel stripLength start count red green blue =>
    [(104, natOfBytes (pixelFrame p start count red green blue stripLength))]
  | .frameTelemetry w => [(192, natOfBytes w)]

/-- The transactions of `SWP s`: its pairs in order (R151). -/
def swapTransactions : List Byte → List Instr
  | a :: b :: rest => .swp [a, b] :: swapTransactions rest
  | _ => []

/-- The port transactions of an instruction: one, but for `SWP s`, which is `len(s)/2` of them (R151). -/
def Instr.transactions : Instr → List Instr
  | .swp s => swapTransactions s
  | i => [i]

end Sys2Proof
end

