-- ==== Sys2Proof/Machine/State.lean ====
section
/-!
DEFINITION. The machine's state (R30 of spec/10_state.md), the outputs in flight (R48, R49, R231, R232), the reasons a step
can stop, and the state after reset (R231 of spec/70_reset_and_hazards.md).
-/

namespace Sys2Proof.Machine

/-- `BUF`, the one memory (R60 of spec/20_memory.md): pairs of an index and a byte, indices strictly rising and below 24, no
byte 0x00 listed. An unlisted index reads as 0x00, the value `BUF` has after reset (R231; log entry 15). -/
abbrev Memory := List Host.Cell

/-- The indices rise strictly, starting at `lo` or above, lie below 24, and no byte 0x00 is listed. -/
def Memory.wfFrom : Nat → Memory → Bool
  | _, [] => true
  | lo, (k, v) :: rest => decide (lo ≤ k) && decide (k < 24) && v != 0#8 && Memory.wfFrom (k + 1) rest

/-- The canonical form of `BUF`. -/
def Memory.wf (m : Memory) : Bool := Memory.wfFrom 0 m

/-- The registers of the synchronizer (R33, R34). -/
structure Syn where
  /-- `ACC`: the last four bytes, the newest in bits 7 to 0 (R33). -/
  acc : Word32
  /-- `IDX`: the element the next byte is written to, 0 to 23 (R34). -/
  idx : BitVec 5
  /-- `CNT`: the bytes since the last sync reset, at most 24 (R34). -/
  cnt : BitVec 5
  /-- `BUF[0..23]` (R34). -/
  buf : Memory
deriving DecidableEq, Repr

/-- SYN's registers after a sync reset (R136). -/
def Syn.empty : Syn := { acc := 0, idx := 0, cnt := 0, buf := [] }

/-- TelemetryFrame, the decoded record (R83 of spec/30_encoding.md). -/
structure TelemetryFrame where
  sensor0  : Word16
  sensor1  : Word16
  sensor2  : Word16
  sensor3  : Word16
  sensor4  : Word16
  sensor5  : Word16
  sensor6  : Word16
  sensor7  : Word16
  status   : Word16
  checksum : Word16
deriving DecidableEq, Repr

/-- The ten words in port order: sensors 0 to 7, status, checksum (R48, R83). -/
def TelemetryFrame.words (t : TelemetryFrame) : List Word16 :=
  [t.sensor0, t.sensor1, t.sensor2, t.sensor3, t.sensor4, t.sensor5, t.sensor6, t.sensor7, t.status, t.checksum]

/-- The three kinds of event (R200 of spec/60_exceptions.md), each with the payload its code names and no other (R201). -/
inductive Event where
  /-- `FRAME_OK`, code 0 (R204). -/
  | frameOk (words : TelemetryFrame)
  /-- `INVALID_FRAME`, code 1: the 24 bytes in wire order (R167, R202). -/
  | invalidFrame (raw : List Byte)
  /-- `SHORT_MATCH`, code 2: the bytes since the last sync reset (R203). -/
  | shortMatch (cnt : BitVec 5)
deriving DecidableEq, Repr

/-- What `VAL` reports (R164 of spec/43_validator.md): `val_pass`, and `val_words` where the verdict is PASS. With FAIL the
words are to be ignored and have no value here (U15; log entry 12). -/
inductive Verdict where
  | pass (words : TelemetryFrame)
  | fail
deriving DecidableEq, Repr

/-- One byte of `TX` with `tx_last` (R48). -/
structure TxByte where
  byte : Byte
  last : Bool
deriving DecidableEq, Repr

/-- One presentation by the host: what one step performs (log entry 1). -/
inductive Stimulus where
  /-- One clock cycle at the ports (R46, R47). -/
  | cycle (c : PortCycle)
  /-- One operation, at the level decision D1 calls normative (R20). -/
  | operation (i : Instr)
  /-- One word of the opcode table, decoded when it is performed: for an `OPV` word, a cycle in which every strobe it sets
  has fired (R88). -/
  | encoded (nbits w : Nat)
deriving DecidableEq, Repr

/-- The machine: the registers of R30, the outputs not yet taken, and the host's presentations still to come. R30 speaks of
"the seven items of this table", and its table has six rows: the model takes the six rows as complete (DESIGN CHOICE, log entry
26). -/
structure State where
  /-- `CRCR` (R31). -/
  crcr      : Word16
  /-- `CRCM` (R32). -/
  crcm      : Word16
  /-- `ACC`, `IDX`, `CNT`, `BUF`. -/
  syn       : Syn
  /-- The events raised and not yet taken, oldest first; `ev_valid` is 1 when there is one (R48, R207). -/
  evPending : List Event
  /-- The bytes emitted and not yet taken, oldest first; `tx_valid` is 1 when there is one (R48). -/
  txPending : List TxByte
  /-- The bytes on `swp_oa`, `swp_ob`, in order; `swp_ovalid` is 1 when there are any (R48, R151). -/
  swpOut    : List Byte
  /-- The verdict on `val_pass`, `val_words`; `val_ovalid` is 1 when there is one (R48, R164). -/
  valOut    : Option Verdict
  /-- The MODEL's own field: what the host presents, next first (log entry 1). -/
  input     : List Stimulus
deriving DecidableEq, Repr

/-- The block has no fault state, no stuck state and no hang (R219 of spec/60_exceptions.md): no constructor. -/
inductive Fault where
deriving DecidableEq, Repr

/-- Why a step is refused: what was given is no operation of the block (R14, R206). Every one is safe: the model stops where
the ports could not have expressed the operation. -/
inductive Refusal where
  /-- An instruction with no meaning yet; raised by `exec` alone. Safe: the model stops. -/
  | notModelled (mnemonic : String)
  /-- `SWP` of an empty list or one of odd length; raised by `execSwp` (R152). Safe: the spec refuses it too. -/
  | swapLength
  /-- `VAL` of a list that is not 24 bytes; raised by `execVal` (R164). Safe: the spec refuses it too. -/
  | validateLength
  /-- `TX.MOTOR` of a selector of 4 or more; raised by `execTxMotor` (R94). Safe: the spec refuses it too. -/
  | motorSelector
  /-- `RX.FRAME` of a list that is not 24 bytes; raised by `execFrameTelemetry` (R104). Safe: the spec names none. -/
  | frameLength
  /-- A word that is no operation of the block; raised by the step (R14). Safe: the model stops. -/
  | undecodable (reason : DecodeError)
deriving DecidableEq, Repr

/-- The machine right after `RST` (R231), with nothing presented yet. -/
def State.reset : State :=
  { crcr := 0x0000, crcm := 0x0000, syn := Syn.empty, evPending := [], txPending := [], swpOut := [], valOut := none,
    input := [] }

end Sys2Proof.Machine
end

