-- ==== Sys2Proof/Machine/Ops.lean ====
section
/-!
DEFINITION. The named operations over `BUF`, the registers and the outputs. Raising an event is ONE operation,
`State.raise`, and the state change that comes with every event is ONE operation, `Syn.syncReset` (R209 of
spec/60_exceptions.md: an event saves nothing, switches no mode and sends control nowhere; R210: nothing returns from it).
-/

namespace Sys2Proof.Machine

/-! ### `BUF` -/

/-- The byte listed at index `a`, 0x00 where none is. -/
def Memory.lookup : Memory → Nat → Byte
  | [], _ => 0#8
  | (k, v) :: rest, a => if k = a then v else Memory.lookup rest a

/-- Lists `v` at index `a`, keeping the canonical form: a byte 0x00 is taken out of the list. -/
def Memory.put : Memory → Nat → Byte → Memory
  | [], a, v => if v = 0#8 then [] else [(a, v)]
  | (k, x) :: rest, a, v =>
    if a < k then (if v = 0#8 then (k, x) :: rest else (a, v) :: (k, x) :: rest)
    else if a = k then (if v = 0#8 then rest else (a, v) :: rest)
    else (k, x) :: Memory.put rest a v

/-- `MemRead(a, 1)`, which is `BUF[a mod 24]` (R13). -/
def Memory.read (m : Memory) (a : Nat) : Byte := Memory.lookup m (a % 24)

/-- `MemWrite(a, 1, v)`, which is `BUF[a mod 24] <- v` (R13). -/
def Memory.write (m : Memory) (a : Nat) (v : Byte) : Memory := Memory.put m (a % 24) v

/-! ### The synchronizer's registers -/

/-- `sync_reset()` (R136): `ACC`, `IDX`, `CNT` and every byte of `BUF` to 0, whatever they were. -/
def Syn.syncReset (_ : Syn) : Syn := Syn.empty

/-- The 24 bytes of `BUF` from the oldest on, `BUF[(IDX + i) mod 24]` (R61, R133). -/
def Syn.window (y : Syn) : List Byte := (List.range 24).map fun i => y.buf.read (y.idx.toNat + i)

/-! ### Registers and outputs -/

/-- `CRCR <- v`. -/
def State.setCrcr (v : Word16) (s : State) : State := { s with crcr := v }

/-- `CRCM <- v`. -/
def State.setCrcm (v : Word16) (s : State) : State := { s with crcm := v }

/-- New values of SYN's registers. -/
def State.setSyn (y : Syn) (s : State) : State := { s with syn := y }

/-- `raise <Event>(info)` (R14, R200): appends to the event output and changes no register. -/
def State.raise (e : Event) (s : State) : State := { s with evPending := s.evPending ++ [e] }

/-- A byte sequence as one frame of `TX`: `tx_last` is 1 with its last byte and with no other (R48). -/
def frameBytes : List Byte → List TxByte
  | [] => []
  | [b] => [{ byte := b, last := true }]
  | b :: rest => { byte := b, last := false } :: frameBytes rest

/-- `emit <bytes>` (R14, R180): appends one whole frame to the transmit output. -/
def State.emit (bs : List Byte) (s : State) : State := { s with txPending := s.txPending ++ frameBytes bs }

/-- Bytes given out by the swapper (R48, R151). -/
def State.giveSwapped (bs : List Byte) (s : State) : State := { s with swpOut := s.swpOut ++ bs }

/-- A verdict given out by the validator (R48, R164). -/
def State.giveVerdict (v : Verdict) (s : State) : State := { s with valOut := some v }

/-- Every output gone: dropped at `RST` (R232), or delivered before the next operation (R73; log entry 3). -/
def State.clearOutputs (s : State) : State := { s with evPending := [], txPending := [], swpOut := [], valOut := none }

/-- What the host has yet to present. -/
def State.setInput (q : List Stimulus) (s : State) : State := { s with input := q }

end Sys2Proof.Machine
end

