-- ==== Sys2Proof/Machine/CrcUnit.lean ====
section
/-!
DEFINITION. The operations of the CRC unit (R115 to R117 of spec/40_crc16.md).
-/

namespace Sys2Proof.Machine

/-- `CRC.INIT` (R115). -/
def execCrcInit (s : State) : Host.Outcome State Fault Refusal := .next ((s.setCrcr crcSeed).setCrcm crcSeed)

/-- `CRC.UPD b` (R116): `CRCM` is not changed. -/
def execCrcUpd (b : Byte) (s : State) : Host.Outcome State Fault Refusal := .next (s.setCrcr (crc16rUpdate s.crcr b))

/-- `CRC.UPDM b` (R117): `CRCR` is not changed. -/
def execCrcUpdm (b : Byte) (s : State) : Host.Outcome State Fault Refusal := .next (s.setCrcm (crc16mUpdate s.crcm b))

end Sys2Proof.Machine
end

