-- ==== Sys2Proof/Machine/System.lean ====
section
/-!
DEFINITION. `RST` and `NOP` (R230 to R232 of spec/70_reset_and_hazards.md; R21 of spec/00_scope.md).
-/

namespace Sys2Proof.Machine

/-- `RST` (R230): both CRC registers to the seed, `sync_reset`, every output in flight dropped (R232). What the host has yet
to present is not the block's (log entry 19). -/
def execRst (s : State) : Host.Outcome State Fault Refusal :=
  .next (((s.setCrcr crcSeed).setCrcm crcSeed).setSyn s.syn.syncReset).clearOutputs

/-- `NOP` (R21): nothing. -/
def execNop (s : State) : Host.Outcome State Fault Refusal := .next s

end Sys2Proof.Machine
end

