-- ==== Sys2Proof/Machine/Encoder.lean ====
section
/-!
DEFINITION. The command encoder (spec/44_encoder.md). It writes no register, raises no event and reads nothing of the
receive path (R180, R188).
-/

namespace Sys2Proof.Machine

/-- `emit motor_frame(sel)` under the constants `p` (R182). -/
def State.txMotor (p : Params) (sel : Nat) (s : State) : State := s.emit (motorFrame p sel)

/-- `emit pixel_frame(...)` under the constants `p`, every operand taken modulo 256 (R92, R186). -/
def State.txPixel (p : Params) (start count red green blue stripLength : Int) (s : State) : State :=
  s.emit (pixelFrame p (truncByte start) (truncByte count) (truncByte red) (truncByte green) (truncByte blue)
    (truncByte stripLength))

/-- `TX.MOTOR sel` (R182); a selector of 4 or more is refused (R94). -/
def execTxMotor (sel : Nat) (s : State) : Host.Outcome State Fault Refusal :=
  if sel < 4 then .next (s.txMotor Config.params sel) else .refused .motorSelector

/-- `TX.PIXEL start, count, red, green, blue, stripLength` (R186): no range check, no relation check. -/
def execTxPixel (start count red green blue stripLength : Int) (s : State) : Host.Outcome State Fault Refusal :=
  .next (s.txPixel Config.params start count red green blue stripLength)

end Sys2Proof.Machine
end

