-- ==== Sys2Proof/Machine/Swapper.lean ====
section
/-!
DEFINITION. The byte-pair swapper (spec/42_swapper.md).
-/

namespace Sys2Proof.Machine

/-- `swap_pairs(s)` on its domain, the lists of positive even length (R150). Outside it no result is ever used: `SWP` refuses
the list (R152). -/
def swapPairs : List Byte → List Byte
  | a :: b :: rest => b :: a :: swapPairs rest
  | _ => []

/-- `SWP s` (R151): the swapped bytes on the output, no register written. An odd or empty list is refused (R152). -/
def execSwp (bs : List Byte) (s : State) : Host.Outcome State Fault Refusal :=
  if swapDomain bs then .next (s.giveSwapped (swapPairs bs)) else .refused .swapLength

end Sys2Proof.Machine
end

