-- ==== Sys2Proof/Machine/Flags.lean ====
section
/-!
DEFINITION. The conditions the block computes. It stores no flag (R36 of spec/10_state.md): the verdict of the validator
(R160 of spec/43_validator.md) and the two tests of the synchronizer (R131, R208) are computed where they are used.
-/

namespace Sys2Proof.Machine

/-- `validate(n)`: true is PASS (R160, R161). The bytes `n[20..23]` take no part. -/
def validate (n : List Byte) : Bool :=
  crc16r (n.take contentLen) == le16 (n.getD 18 0#8) (n.getD 19 0#8)

/-- The match: the accumulator, after the byte is shifted in, equals the delimiter (R131, R132). -/
def Syn.isMatch (p : Params) (y : Syn) : Bool := y.acc == p.delim

/-- A full window: 24 bytes since the last sync reset (R131, R134). -/
def Syn.isFull (y : Syn) : Bool := y.cnt.toNat == frameLen

end Sys2Proof.Machine
end

