-- ==== Sys2Proof/Machine/Validator.lean ====
section
/-!
DEFINITION. The frame validator and the receive path (spec/43_validator.md).
-/

namespace Sys2Proof.Machine

/-- Word `k` of a normalized frame, `le16(n[2k], n[2k+1])` (R63, R90). -/
def frameWord (n : List Byte) (k : Nat) : Word16 := le16 (n.getD (2 * k) 0#8) (n.getD (2 * k + 1) 0#8)

/-- `decode(n)` (R163). -/
def decodeTelemetry (n : List Byte) : TelemetryFrame :=
  { sensor0 := frameWord n 0, sensor1 := frameWord n 1, sensor2 := frameWord n 2, sensor3 := frameWord n 3,
    sensor4 := frameWord n 4, sensor5 := frameWord n 5, sensor6 := frameWord n 6, sensor7 := frameWord n 7,
    status := frameWord n 8, checksum := frameWord n 9 }

/-- What `VAL n` reports (R164): the words only with PASS (U15; log entry 12). -/
def verdict (n : List Byte) : Verdict := if validate n then .pass (decodeTelemetry n) else .fail

/-- The one event `receive_frame(w)` raises for a candidate frame in wire order (R165): the swap once, then the verdict
(R245). -/
def receiveFrame (w : List Byte) : Event :=
  if validate (swapPairs w) then .frameOk (decodeTelemetry (swapPairs w)) else .invalidFrame w

/-- `VAL n` (R164): the verdict on the output, no register written, no event. A list that is not 24 bytes is refused. -/
def execVal (n : List Byte) (s : State) : Host.Outcome State Fault Refusal :=
  if n.length = frameLen then .next (s.giveVerdict (verdict n)) else .refused .validateLength

end Sys2Proof.Machine
end

