-- ==== Sys2Proof/Machine/Synchronizer.lean ====
section
/-!
DEFINITION. The frame synchronizer (spec/41_synchronizer.md).
-/

namespace Sys2Proof.Machine

/-- The first four lines of R131: the byte into `BUF` at `IDX`, the index on by one modulo 24, the count up to 24, the byte
into the low end of the accumulator. -/
def Syn.shiftIn (b : Byte) (y : Syn) : Syn :=
  { acc := (y.acc <<< 8) ||| b.zeroExtend 32
    idx := BitVec.ofNat 5 ((y.idx.toNat + 1) % 24)
    cnt := BitVec.ofNat 5 (min (y.cnt.toNat + 1) 24)
    buf := y.buf.write y.idx.toNat b }

/-- The event of a match: first the count is tested, then the validator's verdict (R131, R208). -/
def Syn.matchEvent (y : Syn) : Event := if y.isFull then receiveFrame y.window else .shortMatch y.cnt

/-- `RX.BYTE b` on SYN's registers (R131): the registers after it and the event it raises. -/
def Syn.rxByte (p : Params) (b : Byte) (y : Syn) : Syn × Option Event :=
  let y1 := y.shiftIn b
  if y1.isMatch p then (y1.syncReset, some y1.matchEvent) else (y1, none)

/-- `RX.BYTE b` on the machine, under the constants `p` (R131). -/
def State.rxByte (p : Params) (b : Byte) (s : State) : State :=
  match s.syn.rxByte p b with
  | (y, none) => s.setSyn y
  | (y, some e) => (s.setSyn y).raise e

/-- `RX.CHUNK s`: nothing but its bytes, one `RX.BYTE` each (R103, R139). -/
def State.rxChunk (p : Params) : List Byte → State → State
  | [], s => s
  | b :: bs, s => State.rxChunk p bs (s.rxByte p b)

/-- `RX.BYTE b` (R131). -/
def execRxByte (b : Byte) (s : State) : Host.Outcome State Fault Refusal := .next (s.rxByte Config.params b)

/-- `RX.CLR` (R138): `sync_reset` with no event; a waiting event stays. -/
def execRxClr (s : State) : Host.Outcome State Fault Refusal := .next (s.setSyn s.syn.syncReset)

end Sys2Proof.Machine
end

