-- ==== Sys2Proof/Machine/WireRows.lean ====
section
/-!
DEFINITION. The six wire-format rows of the opcode table, each the operation or operations the spec names for it (R87, R102,
R104 of spec/30_encoding.md; log entry 10).
-/

namespace Sys2Proof.Machine

/-- `MOTOR.BRAKE` is `TX.MOTOR 0` (R102). -/
def execMotorBrake (s : State) : Host.Outcome State Fault Refusal := .next (s.txMotor Config.params motorBrakeSel)

/-- `MOTOR.STOP` is `TX.MOTOR 1` (R102). -/
def execMotorStop (s : State) : Host.Outcome State Fault Refusal := .next (s.txMotor Config.params motorStopSel)

/-- `MOTOR.CCW` is `TX.MOTOR 2` (R102). -/
def execMotorCcw (s : State) : Host.Outcome State Fault Refusal := .next (s.txMotor Config.params motorCcwSel)

/-- `MOTOR.CW` is `TX.MOTOR 3` (R102). -/
def execMotorCw (s : State) : Host.Outcome State Fault Refusal := .next (s.txMotor Config.params motorCwSel)

/-- `FRAME.PIXEL`: the frame with these fields goes out, which `TX.PIXEL` with the same operands emits (R86, R186). -/
def execFramePixel (stripLength start count red green blue : Byte) (s : State) : Host.Outcome State Fault Refusal :=
  .next (s.emit (pixelFrame Config.params start count red green blue stripLength))

/-- `FRAME.TELEMETRY`: `RX.FRAME w`, the 24 bytes of one wire frame fed in order (R81, R104). -/
def execFrameTelemetry (w : List Byte) (s : State) : Host.Outcome State Fault Refusal :=
  if w.length = frameLen then .next (s.rxChunk Config.params w) else .refused .frameLength

end Sys2Proof.Machine
end

