-- ==== Sys2Proof/Machine/Dispatch.lean ====
section
/-!
DEFINITION. One arm per row of the opcode table.
-/

namespace Sys2Proof.Machine

def exec (i : Instr) (s : State) : Host.Outcome State Fault Refusal :=
  match i with
  | .rst => Sys2Proof.Machine.execRst s
  | .nop => Sys2Proof.Machine.execNop s
  | .crcInit => Sys2Proof.Machine.execCrcInit s
  | .crcUpd b => Sys2Proof.Machine.execCrcUpd b s
  | .crcUpdm b => Sys2Proof.Machine.execCrcUpdm b s
  | .rxClr => Sys2Proof.Machine.execRxClr s
  | .rxByte b => Sys2Proof.Machine.execRxByte b s
  | .swp bs => Sys2Proof.Machine.execSwp bs s
  | .val n => Sys2Proof.Machine.execVal n s
  | .txMotor sel => Sys2Proof.Machine.execTxMotor sel s
  | .txPixel start count red green blue stripLength => Sys2Proof.Machine.execTxPixel start count red green blue stripLength s
  | .motorBrake => Sys2Proof.Machine.execMotorBrake s
  | .motorStop => Sys2Proof.Machine.execMotorStop s
  | .motorCcw => Sys2Proof.Machine.execMotorCcw s
  | .motorCw => Sys2Proof.Machine.execMotorCw s
  | .framePixel stripLength start count red green blue => Sys2Proof.Machine.execFramePixel stripLength start count red green blue s
  | .frameTelemetry w => Sys2Proof.Machine.execFrameTelemetry w s

end Sys2Proof.Machine
end

