-- ==== Sys2Proof/Machine/Ports.lean ====
section
/-!
DEFINITION. The ports (R46 to R49 of spec/10_state.md): what a cycle takes from the output channels, which channels are
ready, the operation vector that results (R88 of spec/30_encoding.md), and the values on the output ports (R48, R201).
-/

namespace Sys2Proof.Machine

/-! ### Inputs -/

/-- The start of a cycle: the waiting event is taken if `ev_ready` is 1, one byte of `TX` if `tx_ready` is 1 (R48), and the
results of the cycle before leave the ports `swp_o*` and `val_*` (log entries 4, 18, 22). -/
def State.takeOutputs (c : PortCycle) (s : State) : State :=
  { s with
    evPending := if c.evReady then s.evPending.tail else s.evPending
    txPending := if c.txReady then s.txPending.tail else s.txPending
    swpOut := []
    valOut := none }

/-- `rx_ready`: 0 while an event waits that is not taken in this cycle (R49: `ev_valid == 1` and `ev_ready == 0`), and when
`rx_clr` is 1 (R47). -/
def State.rxReady (c : PortCycle) (s : State) : Bool :=
  !c.rxClr && (if c.evReady then s.evPending.tail else s.evPending).isEmpty

/-- `txm_ready`: 0 while bytes of a command frame wait on `tx_valid`, the cycle that takes the last one included (R49). -/
def State.txmReady (s : State) : Bool := s.txPending.isEmpty

/-- `txp_ready`: as `txm_ready`, and 0 when `TX.MOTOR` is offered too (R47). -/
def State.txpReady (c : PortCycle) (s : State) : Bool := s.txPending.isEmpty && !c.txmValid

/-- `swp_ready`: no rule holds it low (log entry 4). -/
def State.swpReady (_ : State) : Bool := true

/-- `val_ready`: no rule holds it low (log entry 4). -/
def State.valReady (_ : State) : Bool := true

/-- A vector of ten bits from its bits, bit 9 first. -/
def opvOfBits (b9 b8 b7 b6 b5 b4 b3 b2 b1 b0 : Bool) : BitVec 10 :=
  BitVec.ofNat 10 (b9.toNat * 512 + b8.toNat * 256 + b7.toNat * 128 + b6.toNat * 64 + b5.toNat * 32 + b4.toNat * 16
    + b3.toNat * 8 + b2.toNat * 4 + b1.toNat * 2 + b0.toNat)

/-- `OPV` in a cycle that starts in `s`, with `x_fire = x_valid & x_ready` (R88). -/
def portOpv (c : PortCycle) (s : State) : BitVec 10 :=
  opvOfBits c.rst c.crcInit c.crcUpd c.crcUpdm c.rxClr (c.rxValid && s.rxReady c) (c.swpValid && s.swpReady)
    (c.valValid && s.valReady) (c.txmValid && s.txmReady) (c.txpValid && s.txpReady c)

/-! ### Outputs -/

/-- `ev_code` (R201). -/
def Event.code : Event → BitVec 2
  | .frameOk _ => 0
  | .invalidFrame _ => 1
  | .shortMatch _ => 2

/-- `ev_words`: only with code 0 (R201; log entry 13). -/
def Event.wordsPort : Event → Option (BitVec 160)
  | .frameOk t => some (packWords t.words)
  | .invalidFrame _ => none
  | .shortMatch _ => none

/-- `ev_raw`: only with code 1 (R201). -/
def Event.rawPort : Event → Option (BitVec 192)
  | .frameOk _ => none
  | .invalidFrame raw => some (packBytes raw)
  | .shortMatch _ => none

/-- `ev_cnt`: only with code 2 (R201). -/
def Event.cntPort : Event → Option (BitVec 5)
  | .frameOk _ => none
  | .invalidFrame _ => none
  | .shortMatch n => some n

/-- `val_pass` (R164). -/
def Verdict.passPort : Verdict → Bool
  | .pass _ => true
  | .fail => false

/-- `val_words`: only with PASS (R48, R164). -/
def Verdict.wordsPort : Verdict → Option (BitVec 160)
  | .pass t => some (packWords t.words)
  | .fail => none

/-- The output ports (R48). A port whose `valid` is 0, or that the code or verdict does not name, has no value. -/
structure OutputPorts where
  crcr      : Word16
  crcm      : Word16
  evValid   : Bool
  evCode    : Option (BitVec 2)
  evWords   : Option (BitVec 160)
  evRaw     : Option (BitVec 192)
  evCnt     : Option (BitVec 5)
  swpOvalid : Bool
  swpOa     : Option Byte
  swpOb     : Option Byte
  valOvalid : Bool
  valPass   : Option Bool
  valWords  : Option (BitVec 160)
  txValid   : Bool
  txByte    : Option Byte
  txLast    : Option Bool
deriving DecidableEq, Repr

/-- The values on the output ports (R48): the oldest waiting event, the oldest waiting byte, the verdict, and the FIRST pair of
what the swapper gave out. In a port cycle that is its only pair (R151: one pair a transaction); after an untimed `SWP` of
several pairs the later ones are in `State.swpOut` and on no port (DESIGN CHOICE, log entry 22). -/
def State.outputPorts (s : State) : OutputPorts :=
  { crcr := s.crcr
    crcm := s.crcm
    evValid := !s.evPending.isEmpty
    evCode := s.evPending.head?.map Event.code
    evWords := s.evPending.head?.bind Event.wordsPort
    evRaw := s.evPending.head?.bind Event.rawPort
    evCnt := s.evPending.head?.bind Event.cntPort
    swpOvalid := !s.swpOut.isEmpty
    swpOa := s.swpOut[0]?
    swpOb := s.swpOut[1]?
    valOvalid := s.valOut.isSome
    valPass := s.valOut.map Verdict.passPort
    valWords := s.valOut.bind Verdict.wordsPort
    txValid := !s.txPending.isEmpty
    txByte := s.txPending.head?.map TxByte.byte
    txLast := s.txPending.head?.map TxByte.last }

end Sys2Proof.Machine
end

