-- ==== Sys2Proof/Machine/Run.lean ====
section
/-!
DEFINITION. Operations in order (R73 of spec/20_memory.md), one clock cycle (R46, R47, R88), one operation and one table word,
and the pseudo-operations (R102 to R104 of spec/30_encoding.md).
-/

namespace Sys2Proof.Machine

/-- Operations performed one after the other, each complete before the next (R73). -/
def execAll : List Instr → State → Host.Outcome State Fault Refusal
  | [], s => .next s
  | i :: is, s =>
    match exec i s with
    | .next t => execAll is t
    | .fault f => .fault f
    | .refused r => .refused r

/-- One clock cycle: outputs taken, then the operations whose strobes fire, in descending bit order (R88). -/
def State.runCycle (c : PortCycle) (s : State) : Host.Outcome State Fault Refusal :=
  execAll (decodeOpv (portOpv c s) c.operands) (s.takeOutputs c)

/-- One operation at the untimed level (D1): what was given out before it has been delivered (R73; log entry 3). -/
def State.runOperation (i : Instr) (s : State) : Host.Outcome State Fault Refusal := exec i s.clearOutputs

/-- One table word at the untimed level: the operations it stands for, or a refusal by name (R14). -/
def State.runEncoded (nbits w : Nat) (s : State) : Host.Outcome State Fault Refusal :=
  match decodeWord Config.params nbits w with
  | .ok is => execAll is s.clearOutputs
  | .error e => .refused (.undecodable e)

/-- A table word, put where the next step performs it. -/
def State.presentWord (nbits w : Nat) (s : State) : State := s.setInput (.encoded nbits w :: s.input)

/-! ### Pseudo-operations -/

/-- The pseudo-operations that have no row of the opcode table (R102 to R104). -/
inductive Pseudo where
  /-- `CRC.MSG s` (R102). -/
  | crcMsg (s : List Byte)
  /-- `CRC.MSGM s` (R102). -/
  | crcMsgm (s : List Byte)
  /-- `RX.CHUNK s` (R103). -/
  | rxChunk (s : List Byte)
  /-- `RX.FRAME w`, 24 bytes (R104). -/
  | rxFrame (w : List Byte)
  /-- `SWP24 w`, 24 bytes (R104). -/
  | swp24 (w : List Byte)
deriving DecidableEq, Repr

/-- The operations of `RX.CHUNK s`; `RX.CHUNK []` is `NOP` (R103). -/
def chunkOps : List Byte → List Instr
  | [] => [.nop]
  | b :: bs => (b :: bs).map .rxByte

/-- The expansion of a pseudo-operation; none where its operand is not of the length the spec gives it (R104, R206). -/
def Pseudo.expand : Pseudo → Option (List Instr)
  | .crcMsg s => some (.crcInit :: s.map .crcUpd)
  | .crcMsgm s => some (.crcInit :: s.map .crcUpdm)
  | .rxChunk s => some (chunkOps s)
  | .rxFrame w => if w.length = frameLen then some (chunkOps w) else none
  | .swp24 w => if w.length = frameLen then some [.swp w] else none

end Sys2Proof.Machine
end

