-- ==== Sys2Proof/Machine/Step.lean ====
section
/-!
DEFINITION. One step: the next presentation of the host is performed (R35 of spec/10_state.md: no program counter, nothing
is fetched; log entry 1). With none left the ports are idle and the operation is `NOP` (R21).
-/

namespace Sys2Proof.Machine

/-- One step of the machine. -/
def step (s : State) : Host.Outcome State Fault Refusal :=
  match s.input with
  | [] => s.runCycle PortCycle.idle
  | .cycle c :: rest => (s.setInput rest).runCycle c
  | .operation i :: rest => (s.setInput rest).runOperation i
  | .encoded nbits w :: rest => (s.setInput rest).runEncoded nbits w

/-- `s` with a table word presented next. -/
def State.withFetchWord (s : State) (nbits w : Nat) : State := s.presentWord nbits w

end Sys2Proof.Machine
end

