-- ==== Sys2Proof/Machine/Instances.lean ====
section
/-!
DEFINITION. Several instances of the block, one per serial port (R52 of spec/10_state.md, R215 of spec/60_exceptions.md): the
product of as many states, nothing shared.
-/

namespace Sys2Proof.Machine

/-- The states of the instances. -/
abbrev Instances := List State

/-- One step of instance `k`; with no such instance, nothing (R52; log entry 23). -/
def stepInstance (k : Nat) (m : Instances) : Host.Outcome Instances Fault Refusal :=
  match m[k]? with
  | none => .next m
  | some s =>
    match step s with
    | .next t => .next (m.set k t)
    | .fault f => .fault f
    | .refused r => .refused r

end Sys2Proof.Machine
end

