-- ==== Sys2Proof/Machine/Streams.lean ====
section
/-!
DEFINITION. The output streams (R48 of spec/10_state.md, R200 of spec/60_exceptions.md): `EV`, the events the operations
raise, and `TX`, the bytes they emit; beside them what the consumers have taken, which `RST` can cut short (R232 of
spec/70_reset_and_hazards.md; log entry 2). They are outputs of the model, not state (R39): each is computed from the states
of a run.
-/

namespace Sys2Proof.Machine

/-! ### What the operations raise and emit -/

/-- The events operation `i` raises from `s`: those it appends to what waits (R14). An operation that is refused raises none. -/
def eventsRaisedBy (i : Instr) (s : State) : List Event :=
  match exec i s with
  | .next t => t.evPending.drop s.evPending.length
  | .fault _ => []
  | .refused _ => []

/-- The bytes operation `i` emits from `s` (R14). -/
def bytesEmittedBy (i : Instr) (s : State) : List TxByte :=
  match exec i s with
  | .next t => t.txPending.drop s.txPending.length
  | .fault _ => []
  | .refused _ => []

/-- The events raised by operations performed one after the other, as far as they complete. -/
def eventsRaisedByAll : List Instr → State → List Event
  | [], _ => []
  | i :: is, s =>
    eventsRaisedBy i s ++
      match exec i s with
      | .next t => eventsRaisedByAll is t
      | .fault _ => []
      | .refused _ => []

/-- The bytes emitted by operations performed one after the other, as far as they complete. -/
def bytesEmittedByAll : List Instr → State → List TxByte
  | [], _ => []
  | i :: is, s =>
    bytesEmittedBy i s ++
      match exec i s with
      | .next t => bytesEmittedByAll is t
      | .fault _ => []
      | .refused _ => []

/-- The operations the step from `s` performs. -/
def State.performed (s : State) : List Instr :=
  match s.input with
  | [] => decodeOpv (portOpv PortCycle.idle s) PortCycle.idle.operands
  | .cycle c :: _ => decodeOpv (portOpv c s) c.operands
  | .operation i :: _ => [i]
  | .encoded nbits w :: _ =>
    match decodeWord Config.params nbits w with
    | .ok is => is
    | .error _ => []

/-- The state the step from `s` performs them in: the presentation consumed, outputs taken or delivered. -/
def State.performedFrom (s : State) : State :=
  match s.input with
  | [] => s.takeOutputs PortCycle.idle
  | .cycle c :: rest => (s.setInput rest).takeOutputs c
  | .operation _ :: rest => (s.setInput rest).clearOutputs
  | .encoded _ _ :: rest => (s.setInput rest).clearOutputs

/-- The events raised in the step from `s`. -/
def State.eventsRaised (s : State) : List Event := eventsRaisedByAll s.performed s.performedFrom

/-- The bytes emitted in the step from `s`. -/
def State.bytesEmitted (s : State) : List TxByte := bytesEmittedByAll s.performed s.performedFrom

/-- The stream `EV` over `n` steps: the events raised, in the order raised (R48, R200), as far as the machine steps. -/
def evStream : Nat → State → List Event
  | 0, _ => []
  | n + 1, s =>
    s.eventsRaised ++
      match step s with
      | .next t => evStream n t
      | .fault _ => []
      | .refused _ => []

/-- The stream `TX` over `n` steps: the concatenation, in operation order, of what the encoder operations emit (R48). -/
def txStream : Nat → State → List TxByte
  | 0, _ => []
  | n + 1, s =>
    s.bytesEmitted ++
      match step s with
      | .next t => txStream n t
      | .fault _ => []
      | .refused _ => []

/-! ### What the consumers take -/

/-- The events taken in the step from `s`. -/
def State.eventsTaken (s : State) : List Event :=
  match s.input with
  | [] => []
  | .cycle c :: _ => if c.evReady then s.evPending.take 1 else []
  | .operation _ :: _ => s.evPending
  | .encoded _ _ :: _ => s.evPending

/-- The bytes of `TX` taken in the step from `s`. -/
def State.bytesTaken (s : State) : List TxByte :=
  match s.input with
  | [] => []
  | .cycle c :: _ => if c.txReady then s.txPending.take 1 else []
  | .operation _ :: _ => s.txPending
  | .encoded _ _ :: _ => s.txPending

/-- The events delivered over `n` steps: those of `EV` that were taken, so not what still waits and not what `RST` drops
(R232). -/
def evDelivered : Nat → State → List Event
  | 0, _ => []
  | n + 1, s =>
    s.eventsTaken ++
      match step s with
      | .next t => evDelivered n t
      | .fault _ => []
      | .refused _ => []

/-- The bytes delivered over `n` steps; after an `RST` they may end in a frame cut short, without `tx_last` (R232). -/
def txDelivered : Nat → State → List TxByte
  | 0, _ => []
  | n + 1, s =>
    s.bytesTaken ++
      match step s with
      | .next t => txDelivered n t
      | .fault _ => []
      | .refused _ => []

end Sys2Proof.Machine
end

