-- ==== Sys2Proof/Safety.lean ====
section
/-!
DEFINITION. What a good state is, in the terms the statements use: the invariants of the synchronizer (R34, R140), what is
true of every event and verdict given out (R133, R134, R166, R202, R203), and a run driven at the ports (R49, R208).
-/

namespace Sys2Proof.Machine

/-- The invariant of R34, with `BUF` in its canonical form: `IDX <= 23`, `CNT <= 24`, and `IDX == CNT` while `CNT < 24`. -/
def Syn.wf (y : Syn) : Bool :=
  y.buf.wf && decide (y.idx.toNat ≤ 23) && decide (y.cnt.toNat ≤ 24) && (y.cnt.toNat == 24 || y.idx == y.cnt)

/-- Byte `j` of the accumulator, 0 the newest (R33). -/
def accByte (a : Word32) (j : Nat) : Byte := a.extractLsb' (8 * j) 8

/-- The invariant of R140: the low bytes of `ACC` are the last bytes received since the last sync reset, at most four, and
the bits above them are 0. The `j`-th byte before the newest stands in `BUF` just that far before `IDX`. -/
def Syn.accTracks (y : Syn) : Prop :=
  ∀ j, j < 4 → accByte y.acc j = if j < y.cnt.toNat then y.buf.read (y.idx.toNat + 23 - j) else 0#8

/-- The content of a decoded frame in normalized order: sensors and status, low byte first (R63, R82). -/
def TelemetryFrame.contentBytes (t : TelemetryFrame) : List Byte :=
  (t.words.take 9).flatMap fun w => [lowByte w, highByte w]

/-- The checksum word equals the CRC of the content (R166). -/
def TelemetryFrame.checksumHolds (t : TelemetryFrame) : Bool := crc16r t.contentBytes == t.checksum

/-- What is true of every event raised from a good state: a delivered frame has its CRC (R166), an invalid frame is 24 bytes
that end in the delimiter and fail the validator (R133, R202), a short match counts 1 to 23 bytes (R134, R203). -/
def Event.wf (p : Params) : Event → Bool
  | .frameOk t => t.checksumHolds
  | .invalidFrame raw => raw.length == frameLen && endsInDelim p raw && !validate (swapPairs raw)
  | .shortMatch n => decide (1 ≤ n.toNat) && decide (n.toNat ≤ 23)

/-- A verdict that passes has its CRC (R164). -/
def Verdict.wf : Verdict → Bool
  | .pass t => t.checksumHolds
  | .fail => true

/-- A good state under the constants `p`. -/
structure State.Good (p : Params) (s : State) : Prop where
  synWf    : s.syn.wf = true
  accTrack : s.syn.accTracks
  events   : ∀ e, e ∈ s.evPending → e.wf p = true
  verdict  : ∀ v, s.valOut = some v → v.wf = true

/-- Bit `k` of a byte sequence turned over: bit `k mod 8` of byte `k / 8` (R120, R168). -/
def flipBit (s : List Byte) (k : Nat) : List Byte :=
  s.set (k / 8) (s.getD (k / 8) 0#8 ^^^ (1#8 <<< (k % 8)))

/-- The accumulator after the bytes `bs`, from the value `a` (R131: shift left 8, OR in the new byte, 32 bits). -/
def accAfter (a : Word32) (bs : List Byte) : Word32 := bs.foldl (fun a b => (a <<< 8) ||| b.zeroExtend 32) a

/-- No byte of the stream but perhaps its last completes the delimiter when it is received after a sync reset (R142). -/
def NoEarlyMatch (p : Params) (bs : List Byte) : Prop :=
  ∀ k, 0 < k → k < bs.length → accAfter 0#32 (bs.take k) ≠ p.delim

/-- A wire word, high byte first: `w[2k] << 8 | w[2k+1]` (R62, R163). -/
def wireWord (w : List Byte) (k : Nat) : Word16 :=
  (w.getD (2 * k) 0#8).zeroExtend 16 <<< 8 ||| (w.getD (2 * k + 1) 0#8).zeroExtend 16

/-- The content bytes of a wire frame in the order they are fed to the CRC (R161, R171). -/
def wireContent (w : List Byte) : List Byte :=
  [w.getD 1 0#8, w.getD 0 0#8, w.getD 3 0#8, w.getD 2 0#8, w.getD 5 0#8, w.getD 4 0#8, w.getD 7 0#8, w.getD 6 0#8,
    w.getD 9 0#8, w.getD 8 0#8, w.getD 11 0#8, w.getD 10 0#8, w.getD 13 0#8, w.getD 12 0#8, w.getD 15 0#8, w.getD 14 0#8,
    w.getD 17 0#8, w.getD 16 0#8]

/-- The ten words of a wire frame (R163). -/
def wireFrame (w : List Byte) : TelemetryFrame :=
  { sensor0 := wireWord w 0, sensor1 := wireWord w 1, sensor2 := wireWord w 2, sensor3 := wireWord w 3,
    sensor4 := wireWord w 4, sensor5 := wireWord w 5, sensor6 := wireWord w 6, sensor7 := wireWord w 7,
    status := wireWord w 8, checksum := wireWord w 9 }

/-- A presentation at the ports. -/
def Stimulus.isCycle : Stimulus → Bool
  | .cycle _ => true
  | .operation _ => false
  | .encoded _ _ => false

/-- The bytes left of at most one command frame: not more than 13, `tx_last` with the last of them and no other (R48, R189). -/
def oneFrameLeft (l : List TxByte) : Bool :=
  decide (l.length ≤ pixelFrameLen) && (l.dropLast.all fun b => !b.last) && (l.getLast?.all fun b => b.last)

/-- A machine driven at the ports only: at most one event waits (R49, R208), and the bytes that wait are of one frame
(R189). -/
structure State.PortDriven (s : State) : Prop where
  cycles   : ∀ x, x ∈ s.input → x.isCycle = true
  oneEvent : s.evPending.length ≤ 1
  oneFrame : oneFrameLeft s.txPending = true

/-- The check of R191 that a receiver of command frames makes; the block contains no such checker. -/
def acceptsCommand (p : Params) (f : List Byte) : Bool :=
  match f with
  | h0 :: h1 :: h2 :: h3 :: lo :: hi :: op :: pars =>
    [h0, h1, h2, h3] == p.header.bytes
      && ((op == motorOpcode && pars.length == 1) || (op == p.pixelOpcode && pars.length == 6))
      && crc16r (op :: pars) == le16 lo hi
  | _ => false

end Sys2Proof.Machine
end

