-- ==== Sys2Proof/Certificates/Slice0/Obligations.lean ====
section
/-!
DEFINITION. The statements for the provers. Each is about every state (and every operand) its hypotheses admit; a hypothesis
`buf.wf` is the canonical form of `BUF`, an invariant stated itself (GoodStateKept). Where a name of the model's own stands in
a statement the docstring says so. The rules R63, R87, R102 to R104, R111, R119 to R121, R133, R139, R140, R143, R153, R168, R171,
R172, R187, R191, R208, R219, R235, R240 to R245 and R248 are marked by the spec as its own derivations from other rules.
-/

open Sys2Proof Sys2Proof.Machine

/-! ### The CRC functions -/

/-- R110, the pseudocode as it stands: `t0`, then eight times the low bit tested and the value shifted right. -/
def Obligations.Crc16rUpdateIsEightRightShifts : Prop :=
  ∀ (c : Word16) (b : Byte), ∃ t : Nat → Word16,
    t 0 = c ^^^ b.zeroExtend 16 ∧
    (∀ i, i < 8 → t (i + 1) = if (t i).getLsbD 0 = true then (t i >>> 1) ^^^ 0xA001#16 else t i >>> 1) ∧
    crc16rUpdate c b = t 8

/-- R113, the pseudocode as it stands: `t0`, then eight times bit 15 tested and the value shifted left in 16 bits (a body the
spec takes from general knowledge, log entry 20). -/
def Obligations.Crc16mUpdateIsEightLeftShifts : Prop :=
  ∀ (c : Word16) (b : Byte), ∃ t : Nat → Word16,
    t 0 = c ^^^ (b.zeroExtend 16 <<< 8) ∧
    (∀ i, i < 8 → t (i + 1) = if (t i).getLsbD 15 = true then (t i <<< 1) ^^^ 0x8005#16 else t i <<< 1) ∧
    crc16mUpdate c b = t 8

/-- R111: (a) zero stays zero; (b) linear over XOR; (c) the table form with the table's first eight entries; (d) for a fixed
byte, a bijection on the 16-bit values. -/
def Obligations.Crc16rUpdateLaws : Prop :=
  crc16rUpdate 0x0000#16 0x00#8 = 0x0000#16 ∧
  (∀ c1 c2 b1 b2, crc16rUpdate (c1 ^^^ c2) (b1 ^^^ b2) = crc16rUpdate c1 b1 ^^^ crc16rUpdate c2 b2) ∧
  (∀ c b, crc16rUpdate c b = (c >>> 8) ^^^ crc16rUpdate 0x0000#16 ((c ^^^ b.zeroExtend 16).extractLsb' 0 8)) ∧
  ([0, 1, 2, 3, 4, 5, 6, 7].map (crc16rUpdate 0x0000#16) =
    [0x0000#16, 0xC0C1#16, 0xC181#16, 0x0140#16, 0xC301#16, 0x03C0#16, 0x0280#16, 0xC241#16]) ∧
  (∀ b, Function.Bijective fun c => crc16rUpdate c b)

/-- R119, both halves: the CRC's own bytes appended in its order leave 0. -/
def Obligations.AppendedCrcLeavesZero : Prop :=
  (∀ s : List Byte, crc16r (s ++ [lowByte (crc16r s), highByte (crc16r s)]) = 0x0000#16) ∧
  (∀ s : List Byte, crc16m (s ++ [highByte (crc16m s), lowByte (crc16m s)]) = 0x0000#16)

/-- R120: every single-bit flip of an 18-byte sequence changes its CRC. -/
def Obligations.SingleBitFlipChangesCrc : Prop :=
  ∀ s : List Byte, s.length = 18 → ∀ k, k < 144 → crc16r (flipBit s k) ≠ crc16r s

/-- R121: the two variants are bit-mirrors of each other, and do not agree on the same bytes. -/
def Obligations.CrcVariantsAreMirrors : Prop :=
  (∀ s : List Byte, crc16r s = (crc16m (s.map BitVec.reverse)).reverse) ∧
  crc16r [0x43, 0x00] = 0x3031#16 ∧ crc16m [0x43, 0x00] = 0x8A06#16

/-- R244 (a) and (b): leading zero bytes are invisible, and the all-zero content has the CRC 0, so a window whose first 20
bytes are zero is reported as a valid frame of ten zero words (R172). -/
def Obligations.LeadingZerosAreInvisible : Prop :=
  (∀ (n : Nat) (s : List Byte), crc16r (List.replicate n 0x00#8 ++ s) = crc16r s) ∧
  (∀ d : List Byte, d.length = 4 →
    receiveFrame (List.replicate 20 0x00#8 ++ d) = .frameOk ⟨0, 0, 0, 0, 0, 0, 0, 0, 0, 0⟩)

/-! ### The CRC unit -/

/-- R115 with its frame, and `OPV` bit 8 selecting it alone whatever bits 7 and 6 are. -/
def Obligations.CrcInitClearsBothRegisters : Prop :=
  (∀ s : State, exec .crcInit s = .next { s with crcr := 0x0000#16, crcm := 0x0000#16 }) ∧
  (∀ (v : BitVec 10) (o : PortOperands), v &&& 0x300#10 = 0x100#10 → Instr.crcInit ∈ decodeOpv v o ∧
    ∀ b, Instr.crcUpd b ∉ decodeOpv v o ∧ Instr.crcUpdm b ∉ decodeOpv v o)

/-- R116 with its frame, the update written out as R110 does, and `OPV` bit 7 selecting it with the operand on `crc_byte`. -/
def Obligations.CrcUpdUpdatesCrcrAlone : Prop :=
  (∀ (b : Byte) (s : State), ∃ t : Nat → Word16,
    t 0 = s.crcr ^^^ b.zeroExtend 16 ∧
    (∀ i, i < 8 → t (i + 1) = if (t i).getLsbD 0 = true then (t i >>> 1) ^^^ 0xA001#16 else t i >>> 1) ∧
    exec (.crcUpd b) s = .next { s with crcr := t 8 }) ∧
  (∀ (v : BitVec 10) (o : PortOperands), v &&& 0x380#10 = 0x080#10 → Instr.crcUpd o.crcByte ∈ decodeOpv v o)

/-- R117 with its frame, the update in table form: only the high byte of the register meets the byte (the body of R113 is the
spec's from general knowledge, log entry 20). -/
def Obligations.CrcUpdmUpdatesCrcmAlone : Prop :=
  ∀ (b : Byte) (s : State), exec (.crcUpdm b) s =
    .next { s with crcm := (s.crcm <<< 8) ^^^ crc16mUpdate 0x0000#16 (s.crcm.extractLsb' 8 8 ^^^ b) }

/-- R102: after `CRC.MSG s` the register `CRCR` is `crc16r(s)`, after `CRC.MSGM s` `CRCM` is `crc16m(s)`, whatever the state
was before; nothing else changes but the other register, which `CRC.INIT` cleared. -/
def Obligations.CrcMessageLeavesItsCrc : Prop :=
  ∀ (m : List Byte) (s : State),
    (∃ ops, (Pseudo.crcMsg m).expand = some ops ∧
      execAll ops s = .next { s with crcr := crc16r m, crcm := 0x0000#16 }) ∧
    (∃ ops, (Pseudo.crcMsgm m).expand = some ops ∧
      execAll ops s = .next { s with crcr := 0x0000#16, crcm := crc16m m })

/-- R236: updates without a `CRC.INIT` before them continue the message, so the register holds the CRC of the
concatenation. -/
def Obligations.UpdatesWithoutInitContinueTheMessage : Prop :=
  ∀ (m n : List Byte) (s : State),
    (s.crcr = crc16r m → execAll (n.map .crcUpd) s = .next { s with crcr := crc16r (m ++ n) }) ∧
    (s.crcm = crc16m m → execAll (n.map .crcUpdm) s = .next { s with crcm := crc16m (m ++ n) })

/-! ### The synchronizer -/

/-- R135, R131 without a match: nothing is raised, however many bytes came before; the byte into `BUF[IDX]` and the
accumulator, `IDX` on modulo 24, `CNT` on up to 24, every other byte of `BUF`, every other register and every output as
before; `BUF` keeps its 24 elements. -/
def Obligations.RxByteWithoutMatch : Prop :=
  ∀ (b : Byte) (s : State), s.syn.buf.wf = true →
    (s.syn.acc <<< 8) ||| b.zeroExtend 32 ≠ Config.params.delim →
    ∃ y : Syn, exec (.rxByte b) s = .next { s with syn := y } ∧
      y.buf.wf = true ∧
      y.acc = (s.syn.acc <<< 8) ||| b.zeroExtend 32 ∧
      y.idx.toNat = (s.syn.idx.toNat + 1) % 24 ∧
      y.cnt.toNat = min (s.syn.cnt.toNat + 1) 24 ∧
      y.buf.read s.syn.idx.toNat = b ∧
      (∀ a, a % 24 ≠ s.syn.idx.toNat % 24 → y.buf.read a = s.syn.buf.read a)

/-- R134: a match with fewer than 24 bytes since the last sync reset raises `SHORT_MATCH` with their number and resets SYN;
nothing else changes. -/
def Obligations.RxByteShortMatch : Prop :=
  ∀ (b : Byte) (s : State),
    (s.syn.acc <<< 8) ||| b.zeroExtend 32 = Config.params.delim →
    s.syn.cnt.toNat + 1 < 24 →
    exec (.rxByte b) s =
      .next { s with syn := ⟨0, 0, 0, []⟩
                     evPending := s.evPending ++ [.shortMatch (BitVec.ofNat 5 (s.syn.cnt.toNat + 1))] }

/-- R131 with R165 to R167, on the wire form of R171: a match with 24 bytes or more reads the last 24 out of `BUF`, oldest
first and `b` last, raises `FRAME_OK` with their words if the CRC agrees and `INVALID_FRAME` with them as received if not,
and resets SYN; nothing else changes. -/
def Obligations.RxByteFullWindow : Prop :=
  ∀ (b : Byte) (s : State), s.syn.buf.wf = true →
    (s.syn.acc <<< 8) ||| b.zeroExtend 32 = Config.params.delim →
    24 ≤ s.syn.cnt.toNat + 1 →
    ∃ w : List Byte, w.length = 24 ∧
      (∀ i, i < 23 → w.getD i 0#8 = s.syn.buf.read (s.syn.idx.toNat + 1 + i)) ∧
      w.getD 23 0#8 = b ∧
      exec (.rxByte b) s =
        .next { s with syn := ⟨0, 0, 0, []⟩
                       evPending := s.evPending ++
                         [if (wireContent w).foldl crc16rUpdate 0x0000#16 = wireWord w 9 then .frameOk (wireFrame w)
                          else .invalidFrame w] }

/-- R133: in a good synchronizer the window read out at a full match ends in the delimiter, first-arrived byte first. -/
def Obligations.FullWindowEndsInDelimiter : Prop :=
  ∀ (p : Params) (b : Byte) (y : Syn), y.wf = true → y.accTracks → 24 ≤ y.cnt.toNat + 1 →
    (y.shiftIn b).acc = p.delim → (y.shiftIn b).window.drop 20 = p.delimBytes

/-- R136, R138: `RX.CLR` leaves `ACC`, `IDX`, `CNT` and every byte of `BUF` at 0, raises nothing, withdraws no waiting event
and touches nothing else; `OPV` bit 5 selects it, and no `RX.BYTE` beside it. -/
def Obligations.RxClrEmptiesTheSynchronizer : Prop :=
  (∀ s : State, ∃ y : Syn, exec .rxClr s = .next { s with syn := y } ∧
    y.acc = 0x00000000#32 ∧ y.idx = 0#5 ∧ y.cnt = 0#5 ∧ ∀ i, y.buf.read i = 0x00#8) ∧
  (∀ (v : BitVec 10) (o : PortOperands), v &&& 0x220#10 = 0x020#10 →
    Instr.rxClr ∈ decodeOpv v o ∧ ∀ b, Instr.rxByte b ∉ decodeOpv v o)

/-- R135, its example for every byte and every number of them: a stream of one byte value that never makes up the delimiter
raises nothing; `IDX` wraps, `CNT` saturates, and `BUF` holds that byte wherever it was written. -/
def Obligations.ConstantStreamRaisesNothing : Prop :=
  ∀ (p : Params) (b : Byte) (n : Nat),
    (∀ k, 0 < k → k ≤ 4 → accAfter 0#32 (List.replicate k b) ≠ p.delim) →
    ∃ y : Syn, State.reset.rxChunk p (List.replicate n b) = { State.reset with syn := y } ∧
      y.acc = accAfter 0#32 (List.replicate (min n 4) b) ∧
      y.idx.toNat = n % 24 ∧ y.cnt.toNat = min n 24 ∧
      ∀ i, i < 24 → y.buf.read i = if i < n then b else 0x00#8

/-- R103, R139: however a stream is cut into chunks, the operations leave the same outcome, events and all. -/
def Obligations.ChunkingIsTransparent : Prop :=
  ∀ (chunks : List (List Byte)) (s : State),
    execAll (chunks.flatMap chunkOps) s = execAll (chunkOps chunks.flatten) s

/-- R104 with R81 (that the row stands for the operations is DEDUCED, log entry 10): the row `FRAME.TELEMETRY` feeds its 24
bytes in order, one `RX.BYTE` each; it completes, and only SYN and the event output can change. That a list of another length
is refused, as `frameLength`, is the model's choice (DESIGN CHOICE, log entry 11): R104 gives it no meaning and R206 no
refusal. -/
def Obligations.TelemetryRowFeedsItsBytes : Prop :=
  ∀ (w : List Byte) (s : State),
    (w.length = 24 → exec (.frameTelemetry w) s = execAll (w.map .rxByte) s ∧
      ∃ y ev, exec (.frameTelemetry w) s = .next { s with syn := y, evPending := s.evPending ++ ev }) ∧
    (w.length ≠ 24 → exec (.frameTelemetry w) s = .refused .frameLength)

/-- R143: correct frames one after the other, received from the sync-reset state, raise one `FRAME_OK` each with the state
back at reset between them; correct includes that the delimiter does not turn up early in a frame (R142). -/
def Obligations.BackToBackFramesAreReceived : Prop :=
  ∀ (p : Params) (frames : List (List Byte)) (s : State), s.syn = Syn.empty →
    (∀ w, w ∈ frames → w.length = 24 ∧ endsInDelim p w = true ∧ NoEarlyMatch p w ∧
      crc16r (wireContent w) = wireWord w 9) →
    s.rxChunk p frames.flatten = { s with evPending := s.evPending ++ frames.map fun w => .frameOk (wireFrame w) }

/-- R141, R248: noise of any length followed by a frame gives that frame, good or bad, as long as the delimiter does not turn
up before the frame's end: the window is the last 24 bytes. -/
def Obligations.NoiseThenFrameYieldsTheFrame : Prop :=
  ∀ (p : Params) (noise w : List Byte) (s : State), s.syn = Syn.empty →
    w.length = 24 → endsInDelim p w = true → NoEarlyMatch p (noise ++ w) →
    s.rxChunk p (noise ++ w) = { s with evPending := s.evPending ++
      [if crc16r (wireContent w) = wireWord w 9 then .frameOk (wireFrame w) else .invalidFrame w] }

/-- R142, R240: a delimiter that arrives with fewer than 24 bytes since the sync reset costs the frame: `SHORT_MATCH` with
the number of bytes, and the sync-reset state. -/
def Obligations.EarlyDelimiterCostsTheFrame : Prop :=
  ∀ (p : Params) (pre : List Byte) (s : State), s.syn = Syn.empty →
    pre.length + 4 < 24 → NoEarlyMatch p (pre ++ p.delimBytes) →
    s.rxChunk p (pre ++ p.delimBytes) =
      { s with evPending := s.evPending ++ [.shortMatch (BitVec.ofNat 5 (pre.length + 4))] }

/-- R242: with a delimiter whose first byte, or first two bytes, or all four bytes are 0, three bytes, two bytes or one byte
after a sync reset already match. -/
def Obligations.ZeroFirstDelimiterMatchesEarly : Prop :=
  ∀ (p : Params) (s : State), s.syn = Syn.empty →
    (p.delimBytes.getD 0 0#8 = 0x00#8 → p.delimBytes.getD 1 0#8 ≠ 0x00#8 →
      s.rxChunk p (p.delimBytes.drop 1) = { s with evPending := s.evPending ++ [.shortMatch 3#5] }) ∧
    (p.delimBytes.getD 0 0#8 = 0x00#8 → p.delimBytes.getD 1 0#8 = 0x00#8 → p.delimBytes.getD 2 0#8 ≠ 0x00#8 →
      s.rxChunk p (p.delimBytes.drop 2) = { s with evPending := s.evPending ++ [.shortMatch 2#5] }) ∧
    (p.delim = 0x00000000#32 →
      s.rxChunk p [0x00#8] = { s with evPending := s.evPending ++ [.shortMatch 1#5] })

/-! ### The swapper -/

/-- R150: on its domain `swap_pairs` keeps the length and exchanges the two bytes of every pair. -/
def Obligations.SwapPairsExchangesEachPair : Prop :=
  ∀ s : List Byte, swapDomain s = true →
    (swapPairs s).length = s.length ∧
    ∀ k, k < s.length / 2 →
      (swapPairs s).getD (2 * k) 0#8 = s.getD (2 * k + 1) 0#8 ∧
      (swapPairs s).getD (2 * k + 1) 0#8 = s.getD (2 * k) 0#8

/-- R153: an involution on the domain that keeps the length, and a homomorphism for even lengths. -/
def Obligations.SwapPairsIsAnInvolution : Prop :=
  (∀ x : List Byte, swapDomain x = true →
    swapPairs (swapPairs x) = x ∧ (swapPairs x).length = x.length) ∧
  (∀ x y : List Byte, x.length % 2 = 0 → y.length % 2 = 0 → swapPairs (x ++ y) = swapPairs x ++ swapPairs y)

/-- R151, R152: `SWP s` gives out `swap_pairs(s)`, writes no register and raises nothing; an odd or empty list is refused. -/
def Obligations.SwpGivesTheSwappedBytes : Prop :=
  ∀ (bs : List Byte) (s : State),
    (bs.length % 2 = 0 ∧ bs ≠ [] → exec (.swp bs) s = .next { s with swpOut := s.swpOut ++ swapPairs bs }) ∧
    (¬ (bs.length % 2 = 0 ∧ bs ≠ []) → exec (.swp bs) s = .refused .swapLength)

/-- R151: `SWP s` is the `len(s)/2` transactions of one pair each, in order, and gives `swap_pairs(s)`; one transaction gives
its pair the other way round; `OPV` bit 3 selects it, the pair on `swp_a` and `swp_b`. -/
def Obligations.SwpIsItsPairTransactions : Prop :=
  (∀ (bs : List Byte) (s : State), swapDomain bs = true →
    (swapTransactions bs).length = bs.length / 2 ∧
    (∀ k, k < bs.length / 2 → (swapTransactions bs)[k]? = some (.swp [bs.getD (2 * k) 0#8, bs.getD (2 * k + 1) 0#8])) ∧
    execAll (swapTransactions bs) s = exec (.swp bs) s ∧
    exec (.swp bs) s = .next { s with swpOut := s.swpOut ++ swapPairs bs }) ∧
  (∀ (a b : Byte) (s : State), exec (.swp [a, b]) s = .next { s with swpOut := s.swpOut ++ [b, a] }) ∧
  (∀ (v : BitVec 10) (o : PortOperands), v &&& 0x208#10 = 0x008#10 → Instr.swp [o.swpA, o.swpB] ∈ decodeOpv v o)

/-! ### The validator -/

/-- R164: `VAL n` gives out the verdict on 24 bytes, with the words where it is PASS (the model gives `val_words` no value
where it is FAIL, log entry 12), writes no register and raises no event; another length is refused. -/
def Obligations.ValReportsTheVerdict : Prop :=
  ∀ (n : List Byte) (s : State),
    (n.length = 24 → exec (.val n) s =
      .next { s with valOut := some (if crc16r (n.take 18) = le16 (n.getD 18 0#8) (n.getD 19 0#8)
                                     then .pass (decodeTelemetry n) else .fail) }) ∧
    (n.length ≠ 24 → exec (.val n) s = .refused .validateLength)

/-- R171, R163: the verdict and the words of the normalized frame, stated on the wire frame. -/
def Obligations.VerdictOnTheWireFrame : Prop :=
  ∀ w : List Byte, w.length = 24 →
    (validate (swapPairs w) = true ↔ (wireContent w).foldl crc16rUpdate 0x0000#16 = wireWord w 9) ∧
    decodeTelemetry (swapPairs w) = wireFrame w

/-- R168: a content with its CRC embedded passes whatever the last four bytes are; with any one bit of the content, or of the
two checksum bytes, turned over, it fails. -/
def Obligations.EmbeddedCrcPassesAndFlipsFail : Prop :=
  ∀ m d : List Byte, m.length = 18 → d.length = 4 →
    validate (m ++ [lowByte (crc16r m), highByte (crc16r m)] ++ d) = true ∧
    (∀ k, k < 144 → validate (flipBit m k ++ [lowByte (crc16r m), highByte (crc16r m)] ++ d) = false) ∧
    (∀ k, k < 16 → validate (m ++ flipBit [lowByte (crc16r m), highByte (crc16r m)] k ++ d) = false)

/-! ### The encoder -/

/-- R87, R182, R94: the four motor frames byte by byte, `tx_last` with the eighth; nothing else changes; a selector of 4 or
more is refused. -/
def Obligations.TxMotorEmitsItsFrame : Prop :=
  ∀ (sel : Nat) (s : State),
    (∀ lo hi : Byte, (sel, lo, hi) ∈ [(0, 0x31#8, 0x30#8), (1, 0xF0#8, 0xF0#8), (2, 0xB0#8, 0xF1#8), (3, 0x71#8, 0x31#8)] →
      exec (.txMotor sel) s = .next { s with txPending := s.txPending ++
        [⟨Config.params.header.b0, false⟩, ⟨Config.params.header.b1, false⟩, ⟨Config.params.header.b2, false⟩,
          ⟨Config.params.header.b3, false⟩, ⟨lo, false⟩, ⟨hi, false⟩, ⟨0x43#8, false⟩, ⟨BitVec.ofNat 8 sel, true⟩] }) ∧
    (4 ≤ sel → exec (.txMotor sel) s = .refused .motorSelector)

/-- R86, R92, R186: the pixel frame byte by byte, every operand modulo 256, `stripLength` first in the frame, `tx_last` with
the thirteenth; nothing else changes. -/
def Obligations.TxPixelEmitsItsFrame : Prop :=
  ∀ (start count red green blue stripLength : Int) (s : State), ∃ st n r g b l : Byte,
    (st.toNat : Int) = start % 256 ∧ (n.toNat : Int) = count % 256 ∧ (r.toNat : Int) = red % 256 ∧
    (g.toNat : Int) = green % 256 ∧ (b.toNat : Int) = blue % 256 ∧ (l.toNat : Int) = stripLength % 256 ∧
    exec (.txPixel start count red green blue stripLength) s = .next { s with txPending := s.txPending ++
      [⟨Config.params.header.b0, false⟩, ⟨Config.params.header.b1, false⟩, ⟨Config.params.header.b2, false⟩,
        ⟨Config.params.header.b3, false⟩,
        ⟨(crc16r [Config.params.pixelOpcode, l, st, n, r, g, b]).extractLsb' 0 8, false⟩,
        ⟨(crc16r [Config.params.pixelOpcode, l, st, n, r, g, b]).extractLsb' 8 8, false⟩,
        ⟨Config.params.pixelOpcode, false⟩, ⟨l, false⟩, ⟨st, false⟩, ⟨n, false⟩, ⟨r, false⟩, ⟨g, false⟩, ⟨b, true⟩] }

/-- R102: the four motor rows are `TX.MOTOR 0` to `TX.MOTOR 3`, and each completes. -/
def Obligations.MotorRowsAreTxMotor : Prop :=
  ∀ s : State,
    exec .motorBrake s = exec (.txMotor 0) s ∧ exec .motorStop s = exec (.txMotor 1) s ∧
    exec .motorCcw s = exec (.txMotor 2) s ∧ exec .motorCw s = exec (.txMotor 3) s ∧
    ∀ i, i ∈ [Instr.motorBrake, .motorStop, .motorCcw, .motorCw] →
      ∃ bs : List TxByte, bs.length = 8 ∧ exec i s = .next { s with txPending := s.txPending ++ bs }

/-- R86: the row `FRAME.PIXEL`, its fields in frame order, is the frame `TX.PIXEL` with the same operands emits, and it
completes (DEDUCED from `emitted_by`, log entry 10). -/
def Obligations.PixelRowIsTxPixel : Prop :=
  ∀ (l st n r g b : Byte) (s : State),
    exec (.framePixel l st n r g b) s = exec (.txPixel st.toNat n.toNat r.toNat g.toNat b.toNat l.toNat) s ∧
    ∃ bs : List TxByte, bs.length = 13 ∧
      exec (.framePixel l st n r g b) s = .next { s with txPending := s.txPending ++ bs }

/-- R187, R191: under any constants, every frame the encoder makes passes the receiver's check, and its CRC fed after its
content leaves 0. -/
def Obligations.EmittedFramesValidateThemselves : Prop :=
  ∀ (p : Params) (f : List Byte),
    ((∃ sel, sel < 4 ∧ f = motorFrame p sel) ∨ (∃ a b c d e g, f = pixelFrame p a b c d e g)) →
    acceptsCommand p f = true ∧ crc16r (f.drop 6) = le16 (f.getD 4 0#8) (f.getD 5 0#8) ∧
    crc16r (f.drop 6 ++ [f.getD 4 0#8, f.getD 5 0#8]) = 0x0000#16

/-! ### Reset and whole-machine rules -/

/-- R230 to R232: `RST` from any state gives every register and every output its reset value and drops what waits; `OPV` bit
9 selects it and nothing else. -/
def Obligations.RstGivesTheResetState : Prop :=
  (∀ s : State, ∃ t : State, exec .rst s = .next t ∧
    t.crcr = 0x0000#16 ∧ t.crcm = 0x0000#16 ∧ t.syn.acc = 0x00000000#32 ∧ t.syn.idx = 0#5 ∧ t.syn.cnt = 0#5 ∧
    (∀ i, t.syn.buf.read i = 0x00#8) ∧ t.evPending = [] ∧ t.txPending = [] ∧ t.swpOut = [] ∧ t.valOut = none ∧
    t.outputPorts.evValid = false ∧ t.outputPorts.txValid = false ∧ t.outputPorts.swpOvalid = false ∧
    t.outputPorts.valOvalid = false) ∧
  (∀ (v : BitVec 10) (o : PortOperands), v.getLsbD 9 = true → decodeOpv v o = [.rst])

/-- R21: `NOP` in any state leaves the state unchanged, and it is what a cycle without a strobe is. -/
def Obligations.NopChangesNothing : Prop :=
  (∀ s : State, exec .nop s = .next s) ∧ ∀ o : PortOperands, decodeOpv 0#10 o = [.nop]

/-- R219, R206: every operation whose operands the ports can express has a next state from every state, and the others are
refused; nothing faults. Three of the names are refusals of R206 (an `SWP` length, a `VAL` length, a motor selector); the
fourth, `frameLength`, is the model's choice (DESIGN CHOICE, log entry 11), and it is also the model that counts a telemetry
list of another length among what the ports cannot express. -/
def Obligations.OperationsCompleteOrAreRefused : Prop :=
  ∀ (i : Instr) (s : State),
    (i.accepted = true → ∃ t, exec i s = .next t) ∧
    (i.accepted = false → ∃ r, exec i s = .refused r ∧
      r ∈ [Refusal.swapLength, .validateLength, .motorSelector, .frameLength])

/-- R30's column 'written by', R31, R138, R169, R188, R200: which operations can change which register and which output; none
changes what the host has yet to present, the model's own field (log entries 1, 19). -/
def Obligations.WritersOfEachRegister : Prop :=
  ∀ (i : Instr) (s t : State), exec i s = .next t →
    (t.crcr = s.crcr ∨ i = .rst ∨ i = .crcInit ∨ ∃ b, i = .crcUpd b) ∧
    (t.crcm = s.crcm ∨ i = .rst ∨ i = .crcInit ∨ ∃ b, i = .crcUpdm b) ∧
    (t.syn = s.syn ∨ i = .rst ∨ i = .rxClr ∨ (∃ b, i = .rxByte b) ∨ ∃ w, i = .frameTelemetry w) ∧
    (t.evPending = s.evPending ∨ i = .rst ∨ (∃ b, i = .rxByte b) ∨ ∃ w, i = .frameTelemetry w) ∧
    (t.txPending = s.txPending ∨ i = .rst ∨ (∃ sel, i = .txMotor sel) ∨ (∃ a b c d e f, i = .txPixel a b c d e f) ∨
      i ∈ [Instr.motorBrake, .motorStop, .motorCcw, .motorCw] ∨ ∃ a b c d e f, i = .framePixel a b c d e f) ∧
    (t.swpOut = s.swpOut ∨ i = .rst ∨ ∃ bs, i = .swp bs) ∧
    (t.valOut = s.valOut ∨ i = .rst ∨ ∃ n, i = .val n) ∧
    t.input = s.input

/-- R200: `RX.BYTE` raises exactly one event when the accumulator with the new byte equals the delimiter, and none
otherwise; every event already raised stays before it. -/
def Obligations.OneEventExactlyAtAMatch : Prop :=
  ∀ (b : Byte) (s : State), ∃ t ev, exec (.rxByte b) s = .next t ∧ t.evPending = s.evPending ++ ev ∧
    ((s.syn.acc <<< 8) ||| b.zeroExtend 32 = Config.params.delim → ev.length = 1) ∧
    ((s.syn.acc <<< 8) ||| b.zeroExtend 32 ≠ Config.params.delim → ev = [])

/-! ### Ports, steps and instances -/

/-- R88, by the match and mask of every operation's row of the opcode table: the row's operation is among those of a cycle
exactly when the vector matches the row. -/
def Obligations.OperationVectorSelectsByTable : Prop :=
  ∀ (v : BitVec 10) (o : PortOperands),
    (Instr.rst ∈ decodeOpv v o ↔ v &&& 0x200#10 = 0x200#10) ∧
    (Instr.nop ∈ decodeOpv v o ↔ v &&& 0x3FF#10 = 0x000#10) ∧
    (Instr.crcInit ∈ decodeOpv v o ↔ v &&& 0x300#10 = 0x100#10) ∧
    (Instr.crcUpd o.crcByte ∈ decodeOpv v o ↔ v &&& 0x380#10 = 0x080#10) ∧
    (Instr.crcUpdm o.crcByte ∈ decodeOpv v o ↔ v &&& 0x340#10 = 0x040#10) ∧
    (Instr.rxClr ∈ decodeOpv v o ↔ v &&& 0x220#10 = 0x020#10) ∧
    (Instr.rxByte o.rxByte ∈ decodeOpv v o ↔ v &&& 0x230#10 = 0x010#10) ∧
    (Instr.swp [o.swpA, o.swpB] ∈ decodeOpv v o ↔ v &&& 0x208#10 = 0x008#10) ∧
    (Instr.val (valFrameBytes o.valFrame) ∈ decodeOpv v o ↔ v &&& 0x204#10 = 0x004#10) ∧
    (Instr.txMotor o.txmSel.toNat ∈ decodeOpv v o ↔ v &&& 0x202#10 = 0x002#10) ∧
    (Instr.txPixel o.txpStart.toNat o.txpCount.toNat o.txpRed.toNat o.txpGreen.toNat o.txpBlue.toNat o.txpStriplen.toNat
      ∈ decodeOpv v o ↔ v &&& 0x203#10 = 0x001#10)

/-- R88, D3: the operations that fire in one cycle can be performed in any order with the same result. -/
def Obligations.OrderWithinACycleIsIrrelevant : Prop :=
  ∀ (v : BitVec 10) (o : PortOperands) (s : State) (ops : List Instr), ops.Perm (decodeOpv v o) →
    ∃ t, execAll ops s = .next t ∧ execAll (decodeOpv v o) s = .next t

/-- A few words written from R88's vectors and R87's table decode to their operations (the places of the operand bytes above
the vector are the model's, log entry 8; the frames are under the constants T1 of 95_test_vectors.md); the last word is
rejected. It is no motor frame (R97 (a)): a word of that length with the header, opcode 0x43, the parameter 4 and the checksum
of `MOTOR.CCW`. The block decodes no command frame (R95): that the decoder reads a command frame's word at all, and that it
rejects this one for its checksum, is the model's choice (DESIGN CHOICE, log entry 10). -/
def Obligations.SpecWordsDecode : Prop :=
  decodeTableWord 16 0x200 = some .rst ∧
  decodeTableWord 16 0x000 = some .nop ∧
  decodeTableWord 16 0x100 = some .crcInit ∧
  decodeTableWord 16 0x560080 = some (.crcUpd 0x56) ∧
  decodeTableWord 16 0xEF000010 = some (.rxByte 0xEF) ∧
  decodeTableWord 16 0x3412_0000_0008 = some (.swp [0x12, 0x34]) ∧
  decodeWord Config.params 16 0x4100C0 = .ok [.crcUpd 0x41, .crcUpdm 0x41] ∧
  decodeWord ⟨0xDEADBEEF, ⟨0xCA, 0xFE, 0xF0, 0x0D⟩, 0x50⟩ 64 0x0243F1B00DF0FECA = .ok [.motorCcw] ∧
  decodeWord ⟨0xDEADBEEF, ⟨0xCA, 0xFE, 0xF0, 0x0D⟩, 0x50⟩ 64 0x0443F1B00DF0FECA = .error .checksum

/-- Decoding an encoded well-formed instruction gives it back, every operand at every value (for `SWP s`, whose encoding is
one word a pair, its transactions), under any constants. -/
def Obligations.DecodingAnEncodingGivesItBack : Prop :=
  ∀ (p : Params) (i : Instr), i.wf p = true →
    (encode p i).map (fun w => decodeWord p w.1 w.2) = i.transactions.map fun j => .ok [j]

/-- What a step performs: the operations a port cycle fires, the operation presented, the operation a table word stands for;
outputs are taken, or delivered, before (log entries 3, 4), and a word put in by `withFetchWord` is the next one run. -/
def Obligations.StepPerformsThePresentation : Prop :=
  (∀ (s : State) (c : PortCycle) (rest : List Stimulus), s.input = .cycle c :: rest →
    step s = execAll (decodeOpv (portOpv c s) c.operands) (({ s with input := rest } : State).takeOutputs c)) ∧
  (∀ (s : State) (i : Instr) (rest : List Stimulus), s.input = .operation i :: rest →
    step s = exec i { s with input := rest, evPending := [], txPending := [], swpOut := [], valOut := none }) ∧
  (∀ (s : State) (nbits w : Nat) (i : Instr), decodeTableWord nbits w = some i →
    step (s.withFetchWord nbits w) = exec i { s with evPending := [], txPending := [], swpOut := [], valOut := none })

/-- R46: a cycle with `rst` at 1 performs `RST` whatever else is presented or taken; what the host has yet to present is the
model's own field and stays (log entries 1, 18, 19). -/
def Obligations.ResetCycleOverridesEverything : Prop :=
  ∀ (s : State) (c : PortCycle) (rest : List Stimulus), s.input = .cycle c :: rest → c.rst = true →
    step s = .next { State.reset with input := rest }

/-- R219 at the ports: every clock cycle has a next state, whatever is on the ports and whatever the state. -/
def Obligations.EveryPortCycleCompletes : Prop :=
  ∀ s : State, (∀ x, x ∈ s.input → x.isCycle = true) → ∃ t, step s = .next t ∧ t.input = s.input.tail

/-- R49 (outputs are taken at the start of a cycle, log entry 4): while an event waits and is not taken, no byte is accepted
and the event stays; while bytes of a command frame wait, no command is accepted, not even in the cycle that takes the last,
and they stay in order. -/
def Obligations.WaitingOutputsHoldTheirInputs : Prop :=
  ∀ (s t : State) (c : PortCycle) (rest : List Stimulus), s.input = .cycle c :: rest → c.rst = false → step s = .next t →
    (c.evReady = false → s.evPending ≠ [] → t.evPending = s.evPending ∧ (c.rxClr = false → t.syn = s.syn)) ∧
    (c.txReady = false → s.txPending ≠ [] → t.txPending = s.txPending) ∧
    (c.txReady = true → s.txPending ≠ [] → t.txPending = s.txPending.tail)

/-- R47 (outputs are taken at the start of a cycle, log entry 4): with `rx_clr` at 1 the byte offered in the same cycle is
not accepted; with both encoder channels offered and nothing waiting, the motor command goes first. -/
def Obligations.PortPriorities : Prop :=
  ∀ (s t : State) (c : PortCycle) (rest : List Stimulus), s.input = .cycle c :: rest → c.rst = false → step s = .next t →
    (c.rxClr = true → t.syn = Syn.empty ∧ t.evPending = if c.evReady = true then s.evPending.tail else s.evPending) ∧
    (c.txmValid = true → c.txpValid = true → s.txPending = [] →
      t.txPending.map TxByte.byte = motorFrame Config.params c.operands.txmSel.toNat) ∧
    (c.crcInit = true → t.crcr = 0x0000#16 ∧ t.crcm = 0x0000#16)

/-- R49, R73 (a) and (b) (what waits is taken at the start of a cycle, log entries 2, 4): in a cycle without reset nothing waiting is lost,
doubled or overtaken: what waited followed by what the cycle raises or emits is what is taken followed by what waits after
it. -/
def Obligations.OutputsLeaveInOrder : Prop :=
  ∀ (s t : State) (c : PortCycle) (rest : List Stimulus), s.input = .cycle c :: rest → c.rst = false → step s = .next t →
    ∃ ev bs, ev.length ≤ 1 ∧ oneFrameLeft bs = true ∧
      s.evPending ++ ev = s.eventsTaken ++ t.evPending ∧ s.txPending ++ bs = s.bytesTaken ++ t.txPending

/-- R208, R189: driven at the ports, at most one event ever waits and the bytes that wait are the rest of one command frame;
every step keeps this. -/
def Obligations.PortDrivenRunsHoldOneEventAndOneFrame : Prop :=
  ∀ s t : State, s.PortDriven → step s = .next t → t.PortDriven

/-- R34, R140, R133, R166, R202, R203: every step keeps the invariants of the synchronizer (`BUF` canonical, `IDX`, `CNT` and
`ACC` as R34 and R140 say) and of everything given out (a frame delivered has its CRC, a frame rejected is 24 bytes that end
in the delimiter and fail, a short match counts 1 to 23). -/
def Obligations.GoodStateKept : Prop :=
  ∀ s t : State, s.Good Config.params → step s = .next t → t.Good Config.params

/-- The state after reset meets both invariants. -/
def Obligations.ResetIsGood : Prop :=
  State.reset.Good Config.params ∧ State.reset.PortDriven

/-- R201, R48, R83: the code and the payload of the waiting event on the `ev_*` ports, each payload only with its code, the
ten words at bits `16k+15` to `16k` and the 24 bytes at bits `8i+7` to `8i`; with none waiting, none. -/
def Obligations.EventPortsCarryTheEvent : Prop :=
  ∀ (s : State) (rest : List Event),
    (∀ t, s.evPending = .frameOk t :: rest → s.outputPorts.evValid = true ∧ s.outputPorts.evCode = some 0#2 ∧
      s.outputPorts.evRaw = none ∧ s.outputPorts.evCnt = none ∧
      ∃ v, s.outputPorts.evWords = some v ∧ ∀ k, k < 10 → v.extractLsb' (16 * k) 16 = t.words.getD k 0#16) ∧
    (∀ raw, s.evPending = .invalidFrame raw :: rest → raw.length = 24 →
      s.outputPorts.evValid = true ∧ s.outputPorts.evCode = some 1#2 ∧
      s.outputPorts.evWords = none ∧ s.outputPorts.evCnt = none ∧
      ∃ v, s.outputPorts.evRaw = some v ∧ ∀ i, i < 24 → v.extractLsb' (8 * i) 8 = raw.getD i 0#8) ∧
    (∀ n, s.evPending = .shortMatch n :: rest → s.outputPorts.evValid = true ∧ s.outputPorts.evCode = some 2#2 ∧
      s.outputPorts.evWords = none ∧ s.outputPorts.evRaw = none ∧ s.outputPorts.evCnt = some n) ∧
    (s.evPending = [] → s.outputPorts.evValid = false ∧ s.outputPorts.evCode = none)

/-- R95, D23 (the form of the constant is log entry 6): the constants of the block obey the one constraint, and every value
the constraint allows is one of those the model leaves open. -/
def Obligations.PixelOpcodeIsAnyButTheMotorOpcode : Prop :=
  Config.params.wf = true ∧ ∀ b : Byte, b ≠ 0x43#8 → ∃ k, Config.skipMotorOpcode k = b

/-- R52 (one state an instance, log entry 23): a step of one instance leaves every other as it was, and its own is the
instance's step. -/
def Obligations.InstancesAreIndependent : Prop :=
  ∀ (k : Nat) (m : Instances) (s : State), m[k]? = some s →
    (∀ t, step s = .next t → ∃ m', stepInstance k m = .next m' ∧ m'.length = m.length ∧ m'[k]? = some t ∧
      ∀ j, j ≠ k → m'[j]? = m[j]?) ∧
    (∀ r, step s = .refused r → stepInstance k m = .refused r)

/-- R48, R200 (that waiting outputs are taken or delivered before a step's operations is log entries 3, 4): in a step that
performs no `RST`, what waited followed by the events the step raises is the events taken followed by those that wait after it,
and the same of the bytes: what is raised or emitted is taken or waits, in order, and nothing else is. -/
def Obligations.StreamsHoldWhatIsRaised : Prop :=
  ∀ s t : State, step s = .next t → Instr.rst ∉ s.performed →
    s.evPending ++ s.eventsRaised = s.eventsTaken ++ t.evPending ∧
    s.txPending ++ s.bytesEmitted = s.bytesTaken ++ t.txPending

/-- R48, R200 (the streams as functions of a run are log entry 2): over a presentation of operations, one a step, `EV` is every
event they raise and `TX` every byte they emit, the last operation's included, exactly as when they are performed one after the
other with nothing taken between them. -/
def Obligations.StreamsOfOperations : Prop :=
  ∀ (ops : List Instr) (s u : State), s.input = ops.map .operation → Instr.rst ∉ ops → execAll ops s = .next u →
    u.evPending = s.evPending ++ evStream ops.length s ∧ u.txPending = s.txPending ++ txStream ops.length s
end

