-- ==== Sys2Proof/Laws/Words.lean ====
section
/-!
SUPPORT. Bytes, words and packed ports: the small lemmas of Machine/Operands.lean and Machine/Crc16.lean.
-/

namespace Sys2Proof.Machine

/-! ### Bytes and numbers -/

@[simp] theorem length_bytesOfNat : ∀ (n w : Nat), (bytesOfNat n w).length = n
  | 0, _ => rfl
  | n + 1, w => by simp [bytesOfNat, length_bytesOfNat n]

theorem natOfBytes_lt : ∀ l : List Byte, natOfBytes l < 256 ^ l.length
  | [] => by simp [natOfBytes]
  | b :: bs => by
    have hb := b.isLt
    have hbs := natOfBytes_lt bs
    simp only [natOfBytes, List.length_cons, Nat.pow_succ]
    omega

/-- The bytes of a packed list are the list. -/
theorem bytesOfNat_natOfBytes : ∀ l : List Byte, bytesOfNat l.length (natOfBytes l) = l
  | [] => rfl
  | b :: bs => by
    have hb := b.isLt
    have hdiv : (b.toNat + 256 * natOfBytes bs) / 256 = natOfBytes bs := by omega
    have hlow : BitVec.ofNat 8 (b.toNat + 256 * natOfBytes bs) = b := by
      apply BitVec.eq_of_toNat_eq
      simp only [BitVec.toNat_ofNat]
      omega
    simp only [List.length_cons, bytesOfNat, natOfBytes, hdiv, hlow, bytesOfNat_natOfBytes bs]

theorem bytesOfNat_natOfBytes_of_length {l : List Byte} {n : Nat} (h : l.length = n) :
    bytesOfNat n (natOfBytes l) = l := by
  subst h; exact bytesOfNat_natOfBytes l

/-- The number of a word's bytes is the word, when it has no more bytes. -/
theorem natOfBytes_bytesOfNat : ∀ {n w : Nat}, w < 256 ^ n → natOfBytes (bytesOfNat n w) = w
  | 0, w, h => by simp only [Nat.pow_zero] at h; simp only [bytesOfNat, natOfBytes]; omega
  | n + 1, w, h => by
    have hd : w / 256 < 256 ^ n := by rw [Nat.pow_succ] at h; omega
    simp only [bytesOfNat, natOfBytes, natOfBytes_bytesOfNat hd, BitVec.toNat_ofNat]
    omega

/-- `val_frame` carries its 24 bytes. -/
theorem valFrameBytes_packBytes {l : List Byte} (h : l.length = 24) : valFrameBytes (packBytes l) = l := by
  have hlt := natOfBytes_lt l
  rw [h] at hlt
  have hpow : (256 : Nat) ^ 24 = 2 ^ 192 := by decide
  have hmod : natOfBytes l % 2 ^ 192 = natOfBytes l := Nat.mod_eq_of_lt (by rw [← hpow]; exact hlt)
  simp only [valFrameBytes, packBytes, BitVec.toNat_ofNat, hmod]
  exact bytesOfNat_natOfBytes_of_length h

theorem packBytes_valFrameBytes (v : BitVec 192) : packBytes (valFrameBytes v) = v := by
  have hpow : (256 : Nat) ^ 24 = 2 ^ 192 := by decide
  have hv : v.toNat < 256 ^ 24 := by rw [hpow]; exact v.isLt
  simp [packBytes, valFrameBytes, natOfBytes_bytesOfNat hv]

@[simp] theorem length_valFrameBytes (v : BitVec 192) : (valFrameBytes v).length = 24 := length_bytesOfNat _ _

/-! ### Sixteen-bit values -/

@[simp] theorem lowByte_le16 (lo hi : Byte) : lowByte (le16 lo hi) = lo := by
  apply BitVec.eq_of_getLsbD_eq
  intro i hi'
  simp only [lowByte, le16, BitVec.getLsbD_extractLsb', BitVec.getLsbD_or, BitVec.getLsbD_shiftLeft, BitVec.truncate_eq_setWidth,
    BitVec.getLsbD_setWidth, Nat.zero_add]
  have h16 : i < 16 := by omega
  simp [hi', h16]

@[simp] theorem highByte_le16 (lo hi : Byte) : highByte (le16 lo hi) = hi := by
  apply BitVec.eq_of_getLsbD_eq
  intro i hi'
  have h16 : 8 + i < 16 := by omega
  simp only [highByte, le16, BitVec.getLsbD_extractLsb', BitVec.getLsbD_or, BitVec.getLsbD_shiftLeft, BitVec.truncate_eq_setWidth,
    BitVec.getLsbD_setWidth]
  simp [hi', h16]
  omega

/-- A 16-bit value is assembled again from its two bytes (R90, R91). -/
@[simp] theorem le16_lowByte_highByte (c : Word16) : le16 (lowByte c) (highByte c) = c := by
  apply BitVec.eq_of_getLsbD_eq
  intro i hi'
  simp only [highByte, lowByte, le16, BitVec.getLsbD_extractLsb', BitVec.getLsbD_or, BitVec.getLsbD_shiftLeft,
    BitVec.truncate_eq_setWidth, BitVec.getLsbD_setWidth]
  by_cases h : i < 8
  · simp [h, hi']
  · have h8 : i - 8 < 8 := by omega
    have h8i : 8 + (i - 8) = i := by omega
    have h16 : i - 8 < 16 := by omega
    simp [h, hi', h8, h8i, h16]

/-- An operand that fits its port is sent as it is (R92). -/
theorem truncByte_toNat (b : Byte) : truncByte (b.toNat : Int) = b := by
  simp [truncByte]

theorem toNat_truncByte {v : Int} (h0 : 0 ≤ v) (h1 : v < 256) : ((truncByte v).toNat : Int) = v := by
  simp only [truncByte, BitVec.toNat_ofInt]
  omega

/-! ### The CRC of a message -/

@[simp] theorem crc16r_nil : crc16r [] = 0#16 := rfl

theorem crc16r_append (s t : List Byte) : crc16r (s ++ t) = t.foldl crc16rUpdate (crc16r s) := List.foldl_append

theorem crc16r_snoc (s : List Byte) (b : Byte) : crc16r (s ++ [b]) = crc16rUpdate (crc16r s) b := crc16r_append s [b]

@[simp] theorem crc16m_nil : crc16m [] = 0#16 := rfl

theorem crc16m_append (s t : List Byte) : crc16m (s ++ t) = t.foldl crc16mUpdate (crc16m s) := List.foldl_append

theorem crc16m_snoc (s : List Byte) (b : Byte) : crc16m (s ++ [b]) = crc16mUpdate (crc16m s) b := crc16m_append s [b]

theorem applyN_add {α : Type} (f : α → α) : ∀ (m n : Nat) (x : α), applyN f (m + n) x = applyN f n (applyN f m x)
  | 0, n, x => by simp [applyN]
  | m + 1, n, x => by rw [Nat.succ_add]; exact applyN_add f m n (f x)

/-! ### Command frames -/

@[simp] theorem length_commandFrame (p : Params) (content : List Byte) :
    (commandFrame p content).length = 6 + content.length := by
  simp [commandFrame, Header.bytes]; omega

@[simp] theorem length_motorFrame (p : Params) (sel : Nat) : (motorFrame p sel).length = 8 := by
  simp [motorFrame]

@[simp] theorem length_pixelFrame (p : Params) (a b c d e f : Byte) : (pixelFrame p a b c d e f).length = 13 := by
  simp [pixelFrame]

end Sys2Proof.Machine
end

