-- ==== Sys2Proof/Laws/Codec.lean ====
section
/-!
SUPPORT. The word of an operation vector and its operand ports, read back by the decoder.
-/

namespace Sys2Proof

open Sys2Proof.Machine

@[simp] theorem length_portBytes (opv : BitVec 10) (o : PortOperands) : (portBytes opv o).length = 37 := by
  simp [portBytes, valFrameBytes]

/-- Every bit of the vector and every operand is read from the place the encoder puts it. -/
theorem decodePortBytes_portBytes (opv : BitVec 10) (o : PortOperands) :
    decodePortBytes (portBytes opv o) = .ok (decodeOpv opv o) := by
  have hlen : (valFrameBytes o.valFrame).length = 24 := length_bytesOfNat 24 _
  have hopv := opv.isLt
  have hsel := o.txmSel.isLt
  have hdrop : (valFrameBytes o.valFrame ++ [o.txmSel.zeroExtend 8, o.txpStart, o.txpCount, o.txpRed, o.txpGreen, o.txpBlue,
      o.txpStriplen]).drop 24 =
      [o.txmSel.zeroExtend 8, o.txpStart, o.txpCount, o.txpRed, o.txpGreen, o.txpBlue, o.txpStriplen] :=
    List.drop_left' hlen
  have htake : (valFrameBytes o.valFrame ++ [o.txmSel.zeroExtend 8, o.txpStart, o.txpCount, o.txpRed, o.txpGreen, o.txpBlue,
      o.txpStriplen]).take 24 = valFrameBytes o.valFrame :=
    List.take_left' hlen
  have hv : BitVec.ofNat 10 ((BitVec.ofNat 8 opv.toNat).toNat + 256 * (BitVec.ofNat 8 (opv.toNat / 256)).toNat) = opv := by
    apply BitVec.eq_of_toNat_eq
    simp only [BitVec.toNat_ofNat]
    omega
  have h1 : (BitVec.ofNat 8 (opv.toNat / 256)).toNat < 4 := by
    simp only [BitVec.toNat_ofNat]
    omega
  have hs : (o.txmSel.zeroExtend 8).toNat = o.txmSel.toNat := by
    simp only [BitVec.truncate_eq_setWidth, BitVec.toNat_setWidth]
    omega
  have hs2 : BitVec.ofNat 2 o.txmSel.toNat = o.txmSel := by simp
  simp only [portBytes, List.cons_append, List.nil_append, decodePortBytes, hdrop, htake, h1, hs, hsel, hv, hs2,
    packBytes_valFrameBytes, if_true]

/-- An operation word is decoded to the operations of its vector and operands. -/
theorem decodeWord_portWord (p : Params) (opv : BitVec 10) (o : PortOperands) :
    decodeWord p (portWord opv o).1 (portWord opv o).2 = .ok (decodeOpv opv o) := by
  have hlt : natOfBytes (portBytes opv o) < 256 ^ portWordLen := by
    have h := natOfBytes_lt (portBytes opv o)
    rwa [length_portBytes] at h
  have hb : bytesOfNat portWordLen (natOfBytes (portBytes opv o)) = portBytes opv o :=
    bytesOfNat_natOfBytes_of_length (length_portBytes opv o)
  simp only [decodeWord, portWord, hlt, if_true, hb, or_true, decodePortBytes_portBytes]

end Sys2Proof
end

