-- ==== Sys2Proof/Laws/Memory.lean ====
section
/-!
SUPPORT. `BUF`: a read after a write, and that every write keeps the canonical form.
-/

namespace Sys2Proof.Machine

@[simp] theorem Memory.lookup_nil (a : Nat) : Memory.lookup [] a = 0#8 := rfl

@[simp] theorem Memory.read_nil (a : Nat) : Memory.read [] a = 0#8 := rfl

theorem Memory.read_mod (m : Memory) (a : Nat) : m.read (a % 24) = m.read a := by
  simp [Memory.read]

theorem Memory.write_mod (m : Memory) (a : Nat) (v : Byte) : m.write (a % 24) v = m.write a v := by
  simp [Memory.write]

theorem Memory.wfFrom_mono {lo lo' : Nat} (h : lo' ≤ lo) : ∀ {m : Memory}, m.wfFrom lo = true → m.wfFrom lo' = true
  | [], _ => rfl
  | (k, v) :: rest, hw => by
    simp only [Memory.wfFrom, Bool.and_eq_true, decide_eq_true_eq] at hw ⊢
    exact ⟨⟨⟨by omega, hw.1.1.2⟩, hw.1.2⟩, hw.2⟩

/-- No index below the bound is listed. -/
theorem Memory.lookup_below {a : Nat} : ∀ {m : Memory} {lo : Nat}, m.wfFrom lo = true → a < lo → m.lookup a = 0#8
  | [], _, _, _ => rfl
  | (k, v) :: rest, lo, hw, ha => by
    simp only [Memory.wfFrom, Bool.and_eq_true, decide_eq_true_eq] at hw
    have hk : k ≠ a := by omega
    simp only [Memory.lookup, if_neg hk]
    exact Memory.lookup_below hw.2 (by omega)

theorem Memory.lookup_put {a i : Nat} {v : Byte} :
    ∀ {m : Memory} {lo : Nat}, m.wfFrom lo = true → (m.put a v).lookup i = if i = a then v else m.lookup i
  | [], _, _ => by
    by_cases hv : v = 0#8
    · by_cases hi : i = a <;> simp [Memory.put, hv, hi]
    · by_cases hi : i = a
      · simp [Memory.put, hv, Memory.lookup, hi]
      · have : ¬ a = i := fun h => hi h.symm
        simp [Memory.put, hv, Memory.lookup, hi, this]
  | (k, x) :: rest, lo, hw => by
    have hw' := hw
    simp only [Memory.wfFrom, Bool.and_eq_true, decide_eq_true_eq] at hw
    by_cases hak : a < k
    · have hput : Memory.put ((k, x) :: rest) a v = if v = 0#8 then (k, x) :: rest else (a, v) :: (k, x) :: rest := by
        simp [Memory.put, hak]
      have hbelow : Memory.lookup ((k, x) :: rest) a = 0#8 := by
        have hka : k ≠ a := by omega
        simp only [Memory.lookup, if_neg hka]
        exact Memory.lookup_below hw.2 (by omega)
      rw [hput]
      by_cases hv : v = 0#8
      · rw [if_pos hv]
        by_cases hi : i = a
        · rw [if_pos hi, hi, hbelow, hv]
        · rw [if_neg hi]
      · rw [if_neg hv]
        by_cases hi : i = a
        · simp [Memory.lookup, hi]
        · have : ¬ a = i := fun h => hi h.symm
          simp [Memory.lookup, hi, this]
    · by_cases hek : a = k
      · subst hek
        by_cases hv : v = 0#8
        · by_cases hi : i = a
          · subst hi
            simp [Memory.put, hv, Memory.lookup_below hw.2 (Nat.lt_succ_self i)]
          · have : ¬ a = i := fun h => hi h.symm
            simp [Memory.put, hv, Memory.lookup, hi, this]
        · by_cases hi : i = a
          · simp [Memory.put, hv, Memory.lookup, hi]
          · have : ¬ a = i := fun h => hi h.symm
            simp [Memory.put, hv, Memory.lookup, hi, this]
      · have ih := Memory.lookup_put (a := a) (i := i) (v := v) hw.2
        by_cases hki : k = i
        · subst hki
          have : ¬ k = a := fun h => hek h.symm
          simp [Memory.put, hak, hek, Memory.lookup, this]
        · simp [Memory.put, hak, hek, Memory.lookup, hki, ih]

theorem Memory.wfFrom_put {a : Nat} {v : Byte} (ha : a < 24) :
    ∀ {m : Memory} {lo : Nat}, lo ≤ a → m.wfFrom lo = true → (m.put a v).wfFrom lo = true
  | [], lo, hlo, _ => by
    by_cases hv : v = 0#8 <;> simp [Memory.put, Memory.wfFrom, hv, hlo, ha]
  | (k, x) :: rest, lo, hlo, hw => by
    have hw' := hw
    simp only [Memory.wfFrom, Bool.and_eq_true, decide_eq_true_eq] at hw
    by_cases hak : a < k
    · by_cases hv : v = 0#8
      · simpa [Memory.put, hak, hv] using hw'
      · simp only [Memory.put, if_pos hak, if_neg hv, Memory.wfFrom, Bool.and_eq_true, decide_eq_true_eq]
        exact ⟨⟨⟨hlo, ha⟩, by simpa using hv⟩, ⟨⟨by omega, hw.1.1.2⟩, hw.1.2⟩, hw.2⟩
    · by_cases hek : a = k
      · subst hek
        by_cases hv : v = 0#8
        · simpa [Memory.put, hv] using Memory.wfFrom_mono (by omega) hw.2
        · simp only [Memory.put, if_neg hak, if_neg hv, if_true, Memory.wfFrom, Bool.and_eq_true, decide_eq_true_eq]
          exact ⟨⟨⟨hlo, ha⟩, by simpa using hv⟩, hw.2⟩
      · simp only [Memory.put, if_neg hak, if_neg hek, Memory.wfFrom, Bool.and_eq_true, decide_eq_true_eq]
        exact ⟨⟨⟨hw.1.1.1, hw.1.1.2⟩, hw.1.2⟩, Memory.wfFrom_put ha (by omega) hw.2⟩

/-- A write keeps the canonical form. -/
theorem Memory.wf_write {m : Memory} (h : m.wf = true) (a : Nat) (v : Byte) : (m.write a v).wf = true :=
  Memory.wfFrom_put (Nat.mod_lt a (by omega)) (Nat.zero_le _) h

/-- A read after a write: the byte written, modulo 24, and every other byte as before. -/
theorem Memory.read_write {m : Memory} (h : m.wf = true) (a i : Nat) (v : Byte) :
    (m.write a v).read i = if i % 24 = a % 24 then v else m.read i :=
  Memory.lookup_put h

theorem Memory.read_write_same {m : Memory} (h : m.wf = true) (a : Nat) (v : Byte) : (m.write a v).read a = v := by
  rw [Memory.read_write h, if_pos rfl]

theorem Memory.read_write_other {m : Memory} (h : m.wf = true) {a i : Nat} (hi : i % 24 ≠ a % 24) (v : Byte) :
    (m.write a v).read i = m.read i := by
  rw [Memory.read_write h, if_neg hi]

/-- The sync-reset memory is canonical. -/
@[simp] theorem Memory.wf_nil : Memory.wf [] = true := rfl

/-- The memory after reset is canonical. -/
theorem State.reset_memory_wf : State.reset.syn.buf.wf = true := rfl

end Sys2Proof.Machine
end

