-- ==== Sys2Proof/Laws/State.lean ====
section
/-!
SUPPORT. One lemma per field of State per named update: what the update makes of the field.
-/

namespace Sys2Proof.Machine

variable (s : State)

@[simp] theorem State.setCrcr_crcr (v : Word16) : (s.setCrcr v).crcr = v := rfl
@[simp] theorem State.setCrcr_crcm (v : Word16) : (s.setCrcr v).crcm = s.crcm := rfl
@[simp] theorem State.setCrcr_syn (v : Word16) : (s.setCrcr v).syn = s.syn := rfl
@[simp] theorem State.setCrcr_evPending (v : Word16) : (s.setCrcr v).evPending = s.evPending := rfl
@[simp] theorem State.setCrcr_txPending (v : Word16) : (s.setCrcr v).txPending = s.txPending := rfl
@[simp] theorem State.setCrcr_swpOut (v : Word16) : (s.setCrcr v).swpOut = s.swpOut := rfl
@[simp] theorem State.setCrcr_valOut (v : Word16) : (s.setCrcr v).valOut = s.valOut := rfl
@[simp] theorem State.setCrcr_input (v : Word16) : (s.setCrcr v).input = s.input := rfl

@[simp] theorem State.setCrcm_crcr (v : Word16) : (s.setCrcm v).crcr = s.crcr := rfl
@[simp] theorem State.setCrcm_crcm (v : Word16) : (s.setCrcm v).crcm = v := rfl
@[simp] theorem State.setCrcm_syn (v : Word16) : (s.setCrcm v).syn = s.syn := rfl
@[simp] theorem State.setCrcm_evPending (v : Word16) : (s.setCrcm v).evPending = s.evPending := rfl
@[simp] theorem State.setCrcm_txPending (v : Word16) : (s.setCrcm v).txPending = s.txPending := rfl
@[simp] theorem State.setCrcm_swpOut (v : Word16) : (s.setCrcm v).swpOut = s.swpOut := rfl
@[simp] theorem State.setCrcm_valOut (v : Word16) : (s.setCrcm v).valOut = s.valOut := rfl
@[simp] theorem State.setCrcm_input (v : Word16) : (s.setCrcm v).input = s.input := rfl

@[simp] theorem State.setSyn_crcr (y : Syn) : (s.setSyn y).crcr = s.crcr := rfl
@[simp] theorem State.setSyn_crcm (y : Syn) : (s.setSyn y).crcm = s.crcm := rfl
@[simp] theorem State.setSyn_syn (y : Syn) : (s.setSyn y).syn = y := rfl
@[simp] theorem State.setSyn_evPending (y : Syn) : (s.setSyn y).evPending = s.evPending := rfl
@[simp] theorem State.setSyn_txPending (y : Syn) : (s.setSyn y).txPending = s.txPending := rfl
@[simp] theorem State.setSyn_swpOut (y : Syn) : (s.setSyn y).swpOut = s.swpOut := rfl
@[simp] theorem State.setSyn_valOut (y : Syn) : (s.setSyn y).valOut = s.valOut := rfl
@[simp] theorem State.setSyn_input (y : Syn) : (s.setSyn y).input = s.input := rfl

@[simp] theorem State.raise_crcr (e : Event) : (s.raise e).crcr = s.crcr := rfl
@[simp] theorem State.raise_crcm (e : Event) : (s.raise e).crcm = s.crcm := rfl
@[simp] theorem State.raise_syn (e : Event) : (s.raise e).syn = s.syn := rfl
@[simp] theorem State.raise_evPending (e : Event) : (s.raise e).evPending = s.evPending ++ [e] := rfl
@[simp] theorem State.raise_txPending (e : Event) : (s.raise e).txPending = s.txPending := rfl
@[simp] theorem State.raise_swpOut (e : Event) : (s.raise e).swpOut = s.swpOut := rfl
@[simp] theorem State.raise_valOut (e : Event) : (s.raise e).valOut = s.valOut := rfl
@[simp] theorem State.raise_input (e : Event) : (s.raise e).input = s.input := rfl

@[simp] theorem State.emit_crcr (bs : List Byte) : (s.emit bs).crcr = s.crcr := rfl
@[simp] theorem State.emit_crcm (bs : List Byte) : (s.emit bs).crcm = s.crcm := rfl
@[simp] theorem State.emit_syn (bs : List Byte) : (s.emit bs).syn = s.syn := rfl
@[simp] theorem State.emit_evPending (bs : List Byte) : (s.emit bs).evPending = s.evPending := rfl
@[simp] theorem State.emit_txPending (bs : List Byte) : (s.emit bs).txPending = s.txPending ++ frameBytes bs := rfl
@[simp] theorem State.emit_swpOut (bs : List Byte) : (s.emit bs).swpOut = s.swpOut := rfl
@[simp] theorem State.emit_valOut (bs : List Byte) : (s.emit bs).valOut = s.valOut := rfl
@[simp] theorem State.emit_input (bs : List Byte) : (s.emit bs).input = s.input := rfl

@[simp] theorem State.giveSwapped_crcr (bs : List Byte) : (s.giveSwapped bs).crcr = s.crcr := rfl
@[simp] theorem State.giveSwapped_crcm (bs : List Byte) : (s.giveSwapped bs).crcm = s.crcm := rfl
@[simp] theorem State.giveSwapped_syn (bs : List Byte) : (s.giveSwapped bs).syn = s.syn := rfl
@[simp] theorem State.giveSwapped_evPending (bs : List Byte) : (s.giveSwapped bs).evPending = s.evPending := rfl
@[simp] theorem State.giveSwapped_txPending (bs : List Byte) : (s.giveSwapped bs).txPending = s.txPending := rfl
@[simp] theorem State.giveSwapped_swpOut (bs : List Byte) : (s.giveSwapped bs).swpOut = s.swpOut ++ bs := rfl
@[simp] theorem State.giveSwapped_valOut (bs : List Byte) : (s.giveSwapped bs).valOut = s.valOut := rfl
@[simp] theorem State.giveSwapped_input (bs : List Byte) : (s.giveSwapped bs).input = s.input := rfl

@[simp] theorem State.giveVerdict_crcr (v : Verdict) : (s.giveVerdict v).crcr = s.crcr := rfl
@[simp] theorem State.giveVerdict_crcm (v : Verdict) : (s.giveVerdict v).crcm = s.crcm := rfl
@[simp] theorem State.giveVerdict_syn (v : Verdict) : (s.giveVerdict v).syn = s.syn := rfl
@[simp] theorem State.giveVerdict_evPending (v : Verdict) : (s.giveVerdict v).evPending = s.evPending := rfl
@[simp] theorem State.giveVerdict_txPending (v : Verdict) : (s.giveVerdict v).txPending = s.txPending := rfl
@[simp] theorem State.giveVerdict_swpOut (v : Verdict) : (s.giveVerdict v).swpOut = s.swpOut := rfl
@[simp] theorem State.giveVerdict_valOut (v : Verdict) : (s.giveVerdict v).valOut = some v := rfl
@[simp] theorem State.giveVerdict_input (v : Verdict) : (s.giveVerdict v).input = s.input := rfl

@[simp] theorem State.clearOutputs_crcr : (s.clearOutputs).crcr = s.crcr := rfl
@[simp] theorem State.clearOutputs_crcm : (s.clearOutputs).crcm = s.crcm := rfl
@[simp] theorem State.clearOutputs_syn : (s.clearOutputs).syn = s.syn := rfl
@[simp] theorem State.clearOutputs_evPending : (s.clearOutputs).evPending = [] := rfl
@[simp] theorem State.clearOutputs_txPending : (s.clearOutputs).txPending = [] := rfl
@[simp] theorem State.clearOutputs_swpOut : (s.clearOutputs).swpOut = [] := rfl
@[simp] theorem State.clearOutputs_valOut : (s.clearOutputs).valOut = none := rfl
@[simp] theorem State.clearOutputs_input : (s.clearOutputs).input = s.input := rfl

@[simp] theorem State.setInput_crcr (q : List Stimulus) : (s.setInput q).crcr = s.crcr := rfl
@[simp] theorem State.setInput_crcm (q : List Stimulus) : (s.setInput q).crcm = s.crcm := rfl
@[simp] theorem State.setInput_syn (q : List Stimulus) : (s.setInput q).syn = s.syn := rfl
@[simp] theorem State.setInput_evPending (q : List Stimulus) : (s.setInput q).evPending = s.evPending := rfl
@[simp] theorem State.setInput_txPending (q : List Stimulus) : (s.setInput q).txPending = s.txPending := rfl
@[simp] theorem State.setInput_swpOut (q : List Stimulus) : (s.setInput q).swpOut = s.swpOut := rfl
@[simp] theorem State.setInput_valOut (q : List Stimulus) : (s.setInput q).valOut = s.valOut := rfl
@[simp] theorem State.setInput_input (q : List Stimulus) : (s.setInput q).input = q := rfl

@[simp] theorem State.takeOutputs_crcr (c : PortCycle) : (s.takeOutputs c).crcr = s.crcr := rfl
@[simp] theorem State.takeOutputs_crcm (c : PortCycle) : (s.takeOutputs c).crcm = s.crcm := rfl
@[simp] theorem State.takeOutputs_syn (c : PortCycle) : (s.takeOutputs c).syn = s.syn := rfl
@[simp] theorem State.takeOutputs_evPending (c : PortCycle) : (s.takeOutputs c).evPending = (if c.evReady then s.evPending.tail else s.evPending) := rfl
@[simp] theorem State.takeOutputs_txPending (c : PortCycle) : (s.takeOutputs c).txPending = (if c.txReady then s.txPending.tail else s.txPending) := rfl
@[simp] theorem State.takeOutputs_swpOut (c : PortCycle) : (s.takeOutputs c).swpOut = [] := rfl
@[simp] theorem State.takeOutputs_valOut (c : PortCycle) : (s.takeOutputs c).valOut = none := rfl
@[simp] theorem State.takeOutputs_input (c : PortCycle) : (s.takeOutputs c).input = s.input := rfl

end Sys2Proof.Machine
end

