-- ==== Sys2Proof/Laws/Ops.lean ====
section
/-!
SUPPORT. What the shared operations can do: the frame read-out, the swap, one received byte, one chunk, one emitted frame.
-/

namespace Sys2Proof.Machine

/-! ### Registers of the synchronizer -/

@[simp] theorem Syn.syncReset_eq (y : Syn) : y.syncReset = Syn.empty := rfl
@[simp] theorem Syn.empty_acc : Syn.empty.acc = 0#32 := rfl
@[simp] theorem Syn.empty_idx : Syn.empty.idx = 0#5 := rfl
@[simp] theorem Syn.empty_cnt : Syn.empty.cnt = 0#5 := rfl
@[simp] theorem Syn.empty_buf : Syn.empty.buf = [] := rfl

@[simp] theorem Syn.shiftIn_acc (b : Byte) (y : Syn) : (y.shiftIn b).acc = (y.acc <<< 8) ||| b.zeroExtend 32 := rfl
@[simp] theorem Syn.shiftIn_buf (b : Byte) (y : Syn) : (y.shiftIn b).buf = y.buf.write y.idx.toNat b := rfl

@[simp] theorem Syn.shiftIn_idx (b : Byte) (y : Syn) : (y.shiftIn b).idx.toNat = (y.idx.toNat + 1) % 24 := by
  simp only [Syn.shiftIn, BitVec.toNat_ofNat]
  omega

@[simp] theorem Syn.shiftIn_cnt (b : Byte) (y : Syn) : (y.shiftIn b).cnt.toNat = min (y.cnt.toNat + 1) 24 := by
  simp only [Syn.shiftIn, BitVec.toNat_ofNat]
  omega

@[simp] theorem Syn.length_window (y : Syn) : y.window.length = 24 := by simp [Syn.window]

theorem Syn.window_getElem (y : Syn) {i : Nat} (h : i < y.window.length) :
    y.window[i] = y.buf.read (y.idx.toNat + i) := by simp [Syn.window]

theorem Syn.window_getD (y : Syn) {i : Nat} (h : i < 24) (d : Byte) :
    y.window.getD i d = y.buf.read (y.idx.toNat + i) := by
  rw [List.getD_eq_getElem _ _ (by simpa using h), Syn.window_getElem]

/-! ### One received byte -/

theorem Syn.rxByte_noMatch {p : Params} {b : Byte} {y : Syn} (h : (y.shiftIn b).acc ≠ p.delim) :
    y.rxByte p b = (y.shiftIn b, none) := by
  have : (y.shiftIn b).isMatch p = false := by simpa [Syn.isMatch] using h
  simp [Syn.rxByte, this]

theorem Syn.rxByte_match {p : Params} {b : Byte} {y : Syn} (h : (y.shiftIn b).acc = p.delim) :
    y.rxByte p b = (Syn.empty, some (y.shiftIn b).matchEvent) := by
  have : (y.shiftIn b).isMatch p = true := by simpa [Syn.isMatch] using h
  simp [Syn.rxByte, this]

theorem Syn.matchEvent_full {y : Syn} (h : y.cnt.toNat = 24) : y.matchEvent = receiveFrame y.window := by
  simp [Syn.matchEvent, Syn.isFull, h]

theorem Syn.matchEvent_short {y : Syn} (h : y.cnt.toNat ≠ 24) : y.matchEvent = .shortMatch y.cnt := by
  simp [Syn.matchEvent, Syn.isFull, h]

theorem State.rxByte_noMatch {p : Params} {b : Byte} {s : State} (h : (s.syn.shiftIn b).acc ≠ p.delim) :
    s.rxByte p b = s.setSyn (s.syn.shiftIn b) := by
  simp [State.rxByte, Syn.rxByte_noMatch h]

theorem State.rxByte_match {p : Params} {b : Byte} {s : State} (h : (s.syn.shiftIn b).acc = p.delim) :
    s.rxByte p b = (s.setSyn Syn.empty).raise (s.syn.shiftIn b).matchEvent := by
  simp [State.rxByte, Syn.rxByte_match h]

/-- Everything one received byte can do: no match and no event, or a match, one event and a sync reset. -/
theorem State.rxByte_cases (p : Params) (b : Byte) (s : State) :
    ((s.syn.shiftIn b).acc ≠ p.delim ∧ s.rxByte p b = s.setSyn (s.syn.shiftIn b)) ∨
    ((s.syn.shiftIn b).acc = p.delim ∧
      s.rxByte p b = (s.setSyn Syn.empty).raise (s.syn.shiftIn b).matchEvent) := by
  by_cases h : (s.syn.shiftIn b).acc = p.delim
  · exact .inr ⟨h, State.rxByte_match h⟩
  · exact .inl ⟨h, State.rxByte_noMatch h⟩

@[simp] theorem State.rxByte_crcr (p : Params) (b : Byte) (s : State) : (s.rxByte p b).crcr = s.crcr := by
  obtain ⟨-, h⟩ | ⟨-, h⟩ := s.rxByte_cases p b <;> simp [h]
@[simp] theorem State.rxByte_crcm (p : Params) (b : Byte) (s : State) : (s.rxByte p b).crcm = s.crcm := by
  obtain ⟨-, h⟩ | ⟨-, h⟩ := s.rxByte_cases p b <;> simp [h]
@[simp] theorem State.rxByte_txPending (p : Params) (b : Byte) (s : State) : (s.rxByte p b).txPending = s.txPending := by
  obtain ⟨-, h⟩ | ⟨-, h⟩ := s.rxByte_cases p b <;> simp [h]
@[simp] theorem State.rxByte_swpOut (p : Params) (b : Byte) (s : State) : (s.rxByte p b).swpOut = s.swpOut := by
  obtain ⟨-, h⟩ | ⟨-, h⟩ := s.rxByte_cases p b <;> simp [h]
@[simp] theorem State.rxByte_valOut (p : Params) (b : Byte) (s : State) : (s.rxByte p b).valOut = s.valOut := by
  obtain ⟨-, h⟩ | ⟨-, h⟩ := s.rxByte_cases p b <;> simp [h]
@[simp] theorem State.rxByte_input (p : Params) (b : Byte) (s : State) : (s.rxByte p b).input = s.input := by
  obtain ⟨-, h⟩ | ⟨-, h⟩ := s.rxByte_cases p b <;> simp [h]

/-! ### A chunk is nothing but its bytes -/

@[simp] theorem State.rxChunk_nil (p : Params) (s : State) : s.rxChunk p [] = s := rfl
@[simp] theorem State.rxChunk_cons (p : Params) (b : Byte) (bs : List Byte) (s : State) :
    s.rxChunk p (b :: bs) = (s.rxByte p b).rxChunk p bs := rfl

theorem State.rxChunk_append (p : Params) : ∀ (a b : List Byte) (s : State),
    s.rxChunk p (a ++ b) = (s.rxChunk p a).rxChunk p b
  | [], _, _ => rfl
  | x :: a, b, s => by simpa using State.rxChunk_append p a b (s.rxByte p x)

@[simp] theorem State.rxChunk_crcr (p : Params) : ∀ (bs : List Byte) (s : State), (s.rxChunk p bs).crcr = s.crcr
  | [], _ => rfl
  | b :: bs, s => by simp [State.rxChunk_crcr p bs]
@[simp] theorem State.rxChunk_crcm (p : Params) : ∀ (bs : List Byte) (s : State), (s.rxChunk p bs).crcm = s.crcm
  | [], _ => rfl
  | b :: bs, s => by simp [State.rxChunk_crcm p bs]
@[simp] theorem State.rxChunk_txPending (p : Params) : ∀ (bs : List Byte) (s : State), (s.rxChunk p bs).txPending = s.txPending
  | [], _ => rfl
  | b :: bs, s => by simp [State.rxChunk_txPending p bs]
@[simp] theorem State.rxChunk_swpOut (p : Params) : ∀ (bs : List Byte) (s : State), (s.rxChunk p bs).swpOut = s.swpOut
  | [], _ => rfl
  | b :: bs, s => by simp [State.rxChunk_swpOut p bs]
@[simp] theorem State.rxChunk_valOut (p : Params) : ∀ (bs : List Byte) (s : State), (s.rxChunk p bs).valOut = s.valOut
  | [], _ => rfl
  | b :: bs, s => by simp [State.rxChunk_valOut p bs]
@[simp] theorem State.rxChunk_input (p : Params) : ∀ (bs : List Byte) (s : State), (s.rxChunk p bs).input = s.input
  | [], _ => rfl
  | b :: bs, s => by simp [State.rxChunk_input p bs]

/-! ### The swapper -/

@[simp] theorem swapPairs_nil : swapPairs [] = [] := rfl
@[simp] theorem swapPairs_cons (a b : Byte) (rest : List Byte) :
    swapPairs (a :: b :: rest) = b :: a :: swapPairs rest := rfl

/-! ### Emitted frames -/

@[simp] theorem map_byte_frameBytes : ∀ l : List Byte, (frameBytes l).map TxByte.byte = l
  | [] => rfl
  | [_] => rfl
  | b :: c :: rest => by simp [frameBytes, map_byte_frameBytes (c :: rest)]

@[simp] theorem length_frameBytes (l : List Byte) : (frameBytes l).length = l.length := by
  have h := congrArg List.length (map_byte_frameBytes l)
  rwa [List.length_map] at h

end Sys2Proof.Machine
end

