-- ==== Sys2Proof/Laws/Exec.lean ====
section
/-!
SUPPORT. What each meaning does, one equation an instruction, and what a sequence of operations does.
-/

namespace Sys2Proof.Machine

variable (s : State)

@[simp] theorem exec_rst :
    exec .rst s = .next (((s.setCrcr 0#16).setCrcm 0#16).setSyn Syn.empty).clearOutputs := rfl
@[simp] theorem exec_nop : exec .nop s = .next s := rfl
@[simp] theorem exec_crcInit : exec .crcInit s = .next ((s.setCrcr 0#16).setCrcm 0#16) := rfl
@[simp] theorem exec_crcUpd (b : Byte) : exec (.crcUpd b) s = .next (s.setCrcr (crc16rUpdate s.crcr b)) := rfl
@[simp] theorem exec_crcUpdm (b : Byte) : exec (.crcUpdm b) s = .next (s.setCrcm (crc16mUpdate s.crcm b)) := rfl
@[simp] theorem exec_rxClr : exec .rxClr s = .next (s.setSyn Syn.empty) := rfl
@[simp] theorem exec_rxByte (b : Byte) : exec (.rxByte b) s = .next (s.rxByte Config.params b) := rfl
@[simp] theorem exec_txPixel (a b c d e f : Int) :
    exec (.txPixel a b c d e f) s = .next (s.txPixel Config.params a b c d e f) := rfl
@[simp] theorem exec_motorBrake : exec .motorBrake s = .next (s.emit (motorFrame Config.params 0)) := rfl
@[simp] theorem exec_motorStop : exec .motorStop s = .next (s.emit (motorFrame Config.params 1)) := rfl
@[simp] theorem exec_motorCcw : exec .motorCcw s = .next (s.emit (motorFrame Config.params 2)) := rfl
@[simp] theorem exec_motorCw : exec .motorCw s = .next (s.emit (motorFrame Config.params 3)) := rfl
@[simp] theorem exec_framePixel (l st n r g b : Byte) :
    exec (.framePixel l st n r g b) s = .next (s.emit (pixelFrame Config.params st n r g b l)) := rfl

theorem exec_swp_of_domain {bs : List Byte} (h : swapDomain bs = true) :
    exec (.swp bs) s = .next (s.giveSwapped (swapPairs bs)) := by simp [exec, execSwp, h]
theorem exec_swp_refused {bs : List Byte} (h : swapDomain bs = false) :
    exec (.swp bs) s = .refused .swapLength := by simp [exec, execSwp, h]
theorem exec_val_of_length {n : List Byte} (h : n.length = 24) :
    exec (.val n) s = .next (s.giveVerdict (verdict n)) := by simp [exec, execVal, h]
theorem exec_val_refused {n : List Byte} (h : n.length ≠ 24) :
    exec (.val n) s = .refused .validateLength := by simp [exec, execVal, h]
theorem exec_txMotor_of_lt {sel : Nat} (h : sel < 4) :
    exec (.txMotor sel) s = .next (s.emit (motorFrame Config.params sel)) := by
  simp [exec, execTxMotor, State.txMotor, h]
theorem exec_txMotor_refused {sel : Nat} (h : ¬ sel < 4) :
    exec (.txMotor sel) s = .refused .motorSelector := by simp [exec, execTxMotor, h]
theorem exec_frameTelemetry_of_length {w : List Byte} (h : w.length = 24) :
    exec (.frameTelemetry w) s = .next (s.rxChunk Config.params w) := by simp [exec, execFrameTelemetry, h]
theorem exec_frameTelemetry_refused {w : List Byte} (h : w.length ≠ 24) :
    exec (.frameTelemetry w) s = .refused .frameLength := by simp [exec, execFrameTelemetry, h]

/-! ### Sequences -/

@[simp] theorem execAll_nil : execAll [] s = .next s := rfl

theorem execAll_cons_next {i : Instr} {is : List Instr} {t : State} (h : exec i s = .next t) :
    execAll (i :: is) s = execAll is t := by simp [execAll, h]

@[simp] theorem execAll_single (i : Instr) : execAll [i] s = exec i s := by
  cases h : exec i s <;> simp [execAll, h]

theorem execAll_append_next : ∀ {is js : List Instr} {s t : State}, execAll is s = .next t →
    execAll (is ++ js) s = execAll js t
  | [], js, s, t, h => by simp only [execAll_nil, Host.Outcome.next.injEq] at h; simp [h]
  | i :: is, js, s, t, h => by
    cases hi : exec i s with
    | next u =>
      rw [execAll_cons_next s hi] at h
      rw [List.cons_append, execAll_cons_next s hi]
      exact execAll_append_next h
    | fault f => simp [execAll, hi] at h
    | refused r => simp [execAll, hi] at h

/-- The bytes of a chunk, one `RX.BYTE` each. -/
theorem execAll_rxBytes : ∀ (bs : List Byte) (s : State),
    execAll (bs.map .rxByte) s = .next (s.rxChunk Config.params bs)
  | [], _ => rfl
  | b :: bs, s => by
    rw [List.map_cons, execAll_cons_next s (exec_rxByte s b)]
    exact execAll_rxBytes bs _

end Sys2Proof.Machine
end

