-- ==== Sys2Proof/Laws/PerInstr.lean ====
section
/-!
SUPPORT. Per-instruction facts about the syntax: a well-formed instruction is one the meanings accept.
-/

namespace Sys2Proof.Laws.WfAccepted

/-- What a word of the opcode table can express, a meaning accepts. -/
def Statement (i : Instr) : Prop := ∀ p : Params, i.wf p = true → i.accepted = true

theorem rst : Statement .rst := fun _ _ => rfl
theorem nop : Statement .nop := fun _ _ => rfl
theorem crcInit : Statement .crcInit := fun _ _ => rfl
theorem crcUpd (b : Byte) : Statement (.crcUpd b) := fun _ _ => rfl
theorem crcUpdm (b : Byte) : Statement (.crcUpdm b) := fun _ _ => rfl
theorem rxClr : Statement .rxClr := fun _ _ => rfl
theorem rxByte (b : Byte) : Statement (.rxByte b) := fun _ _ => rfl
theorem swp (s : List Byte) : Statement (.swp s) := fun _ h => h
theorem val (n : List Byte) : Statement (.val n) := fun _ h => h
theorem txMotor (sel : Nat) : Statement (.txMotor sel) := fun _ h => h
theorem txPixel (start count red green blue stripLength : Int) :
    Statement (.txPixel start count red green blue stripLength) := fun _ _ => rfl
theorem motorBrake : Statement .motorBrake := fun _ _ => rfl
theorem motorStop : Statement .motorStop := fun _ _ => rfl
theorem motorCcw : Statement .motorCcw := fun _ _ => rfl
theorem motorCw : Statement .motorCw := fun _ _ => rfl
theorem framePixel (stripLength start count red green blue : Byte) :
    Statement (.framePixel stripLength start count red green blue) := fun _ _ => rfl
theorem frameTelemetry (w : List Byte) : Statement (.frameTelemetry w) := fun _ h => by
  simp only [Instr.wf, Bool.and_eq_true] at h
  exact h.1

end Sys2Proof.Laws.WfAccepted
end

