-- ==== Sys2Proof/Laws/Run.lean ====
section
/-!
SUPPORT. What a step can do, said once: it takes or delivers outputs, moves the presentations on, and performs operations. A
property each of these keeps is one every step keeps.
-/

namespace Sys2Proof.Machine

/-- What every operation keeps, every sequence of operations keeps. -/
theorem execAll_keeps {I : State → Prop} (hexec : ∀ i s t, I s → exec i s = .next t → I t) :
    ∀ is s t, I s → execAll is s = .next t → I t
  | [], s, t, hs, h => by
    simp only [execAll_nil, Host.Outcome.next.injEq] at h
    exact h ▸ hs
  | i :: is, s, t, hs, h => by
    cases hi : exec i s with
    | next u =>
      rw [execAll_cons_next s hi] at h
      exact execAll_keeps hexec is u t (hexec i s u hs hi) h
    | fault f => simp [execAll, hi] at h
    | refused r => simp [execAll, hi] at h

/-- Everything a step that answers a next state can be. -/
theorem step_cases {s t : State} (h : step s = .next t) :
    (s.input = [] ∧ s.runCycle PortCycle.idle = .next t) ∨
    (∃ c rest, s.input = .cycle c :: rest ∧ (s.setInput rest).runCycle c = .next t) ∨
    (∃ i rest, s.input = .operation i :: rest ∧ exec i (s.setInput rest).clearOutputs = .next t) ∨
    (∃ nbits w rest is, s.input = .encoded nbits w :: rest ∧ decodeWord Config.params nbits w = .ok is ∧
      execAll is (s.setInput rest).clearOutputs = .next t) := by
  cases hin : s.input with
  | nil => exact .inl ⟨rfl, by simpa only [step, hin] using h⟩
  | cons x rest =>
    cases x with
    | cycle c => exact .inr (.inl ⟨c, rest, rfl, by simpa only [step, hin] using h⟩)
    | operation i => exact .inr (.inr (.inl ⟨i, rest, rfl, by simpa only [step, hin, State.runOperation] using h⟩))
    | encoded nbits w =>
      simp only [step, hin, State.runEncoded] at h
      cases hd : decodeWord Config.params nbits w with
      | error e => simp [hd] at h
      | ok is => exact .inr (.inr (.inr ⟨nbits, w, rest, is, rfl, hd, by simpa only [hd] using h⟩))

/-- What every operation, the taking and delivering of outputs and a new presentation keep, every step keeps. -/
theorem step_keeps {I : State → Prop} (hexec : ∀ i s t, I s → exec i s = .next t → I t)
    (htake : ∀ c s, I s → I (s.takeOutputs c)) (hclear : ∀ s, I s → I s.clearOutputs)
    (hinput : ∀ q s, I s → I (s.setInput q)) {s t : State} (hs : I s) (h : step s = .next t) : I t := by
  obtain ⟨-, h⟩ | ⟨c, rest, -, h⟩ | ⟨i, rest, -, h⟩ | ⟨nbits, w, rest, is, -, -, h⟩ := step_cases h
  · exact execAll_keeps hexec _ _ _ (htake _ _ hs) h
  · exact execAll_keeps hexec _ _ _ (htake _ _ (hinput _ _ hs)) h
  · exact hexec _ _ _ (hclear _ (hinput _ _ hs)) h
  · exact execAll_keeps hexec _ _ _ (hclear _ (hinput _ _ hs)) h

/-- No operation touches what the host has yet to present. -/
theorem exec_input {i : Instr} {s t : State} (h : exec i s = .next t) : t.input = s.input := by
  cases i
  case swp bs =>
    by_cases hb : swapDomain bs = true
    · rw [exec_swp_of_domain s hb] at h; cases h; rfl
    · rw [exec_swp_refused s (by simpa using hb)] at h; cases h
  case val n =>
    by_cases hb : n.length = 24
    · rw [exec_val_of_length s hb] at h; cases h; rfl
    · rw [exec_val_refused s hb] at h; cases h
  case txMotor sel =>
    by_cases hb : sel < 4
    · rw [exec_txMotor_of_lt s hb] at h; cases h; rfl
    · rw [exec_txMotor_refused s hb] at h; cases h
  case frameTelemetry w =>
    by_cases hb : w.length = 24
    · rw [exec_frameTelemetry_of_length s hb] at h; cases h; exact State.rxChunk_input _ _ _
    · rw [exec_frameTelemetry_refused s hb] at h; cases h
  case rxByte b => cases h; exact State.rxByte_input _ _ _
  all_goals (cases h; rfl)

/-- No sequence of operations does. -/
theorem execAll_input : ∀ {is : List Instr} {s t : State}, execAll is s = .next t → t.input = s.input := by
  intro is s t h
  exact execAll_keeps (I := fun u => u.input = s.input) (fun i a b ha hab => (exec_input hab).trans ha) is s t rfl h

end Sys2Proof.Machine
end

