-- ==== Sys2Proof/Laws/Ports.lean ====
section
/-!
SUPPORT. The operation vector of a cycle bit by bit, and what the operations of each unit do when they fire.
-/

namespace Sys2Proof.Machine

variable (b9 b8 b7 b6 b5 b4 b3 b2 b1 b0 : Bool)

theorem opvOfBits_bit9 : (opvOfBits b9 b8 b7 b6 b5 b4 b3 b2 b1 b0).getLsbD 9 = b9 := by
  revert b9 b8 b7 b6 b5 b4 b3 b2 b1 b0; decide +kernel
theorem opvOfBits_bit8 : (opvOfBits b9 b8 b7 b6 b5 b4 b3 b2 b1 b0).getLsbD 8 = b8 := by
  revert b9 b8 b7 b6 b5 b4 b3 b2 b1 b0; decide +kernel
theorem opvOfBits_bit7 : (opvOfBits b9 b8 b7 b6 b5 b4 b3 b2 b1 b0).getLsbD 7 = b7 := by
  revert b9 b8 b7 b6 b5 b4 b3 b2 b1 b0; decide +kernel
theorem opvOfBits_bit6 : (opvOfBits b9 b8 b7 b6 b5 b4 b3 b2 b1 b0).getLsbD 6 = b6 := by
  revert b9 b8 b7 b6 b5 b4 b3 b2 b1 b0; decide +kernel
theorem opvOfBits_bit5 : (opvOfBits b9 b8 b7 b6 b5 b4 b3 b2 b1 b0).getLsbD 5 = b5 := by
  revert b9 b8 b7 b6 b5 b4 b3 b2 b1 b0; decide +kernel
theorem opvOfBits_bit4 : (opvOfBits b9 b8 b7 b6 b5 b4 b3 b2 b1 b0).getLsbD 4 = b4 := by
  revert b9 b8 b7 b6 b5 b4 b3 b2 b1 b0; decide +kernel
theorem opvOfBits_bit3 : (opvOfBits b9 b8 b7 b6 b5 b4 b3 b2 b1 b0).getLsbD 3 = b3 := by
  revert b9 b8 b7 b6 b5 b4 b3 b2 b1 b0; decide +kernel
theorem opvOfBits_bit2 : (opvOfBits b9 b8 b7 b6 b5 b4 b3 b2 b1 b0).getLsbD 2 = b2 := by
  revert b9 b8 b7 b6 b5 b4 b3 b2 b1 b0; decide +kernel
theorem opvOfBits_bit1 : (opvOfBits b9 b8 b7 b6 b5 b4 b3 b2 b1 b0).getLsbD 1 = b1 := by
  revert b9 b8 b7 b6 b5 b4 b3 b2 b1 b0; decide +kernel
theorem opvOfBits_bit0 : (opvOfBits b9 b8 b7 b6 b5 b4 b3 b2 b1 b0).getLsbD 0 = b0 := by
  revert b9 b8 b7 b6 b5 b4 b3 b2 b1 b0; decide +kernel

variable (v : BitVec 10) (o : PortOperands) (s : State)

/-- The CRC unit's operations of a cycle (R88). -/
theorem execAll_decodeCrcBits : execAll (decodeCrcBits v o) s = .next { s with
    crcr := if v.getLsbD 8 then 0#16 else if v.getLsbD 7 then crc16rUpdate s.crcr o.crcByte else s.crcr
    crcm := if v.getLsbD 8 then 0#16 else if v.getLsbD 6 then crc16mUpdate s.crcm o.crcByte else s.crcm } := by
  unfold decodeCrcBits
  cases v.getLsbD 8 <;> cases v.getLsbD 7 <;> cases v.getLsbD 6 <;> rfl

/-- The synchronizer's operation of a cycle. -/
theorem execAll_decodeSynBits : execAll (decodeSynBits v o) s = .next
    (if v.getLsbD 5 then s.setSyn Syn.empty else if v.getLsbD 4 then s.rxByte Config.params o.rxByte else s) := by
  unfold decodeSynBits
  cases v.getLsbD 5 <;> cases v.getLsbD 4 <;> rfl

/-- The swapper's. -/
theorem execAll_decodeSwpBit : execAll (decodeSwpBit v o) s = .next
    (if v.getLsbD 3 then s.giveSwapped [o.swpB, o.swpA] else s) := by
  have hdom : swapDomain [o.swpA, o.swpB] = true := by simp [swapDomain]
  unfold decodeSwpBit
  cases v.getLsbD 3
  · rfl
  · simp [exec_swp_of_domain s hdom]

/-- The validator's. -/
theorem execAll_decodeValBit : execAll (decodeValBit v o) s = .next
    (if v.getLsbD 2 then s.giveVerdict (verdict (valFrameBytes o.valFrame)) else s) := by
  have hlen : (valFrameBytes o.valFrame).length = 24 := length_bytesOfNat 24 _
  unfold decodeValBit
  cases v.getLsbD 2
  · rfl
  · simp [exec_val_of_length s hlen]

/-- The encoder's. -/
theorem execAll_decodeEncBits : execAll (decodeEncBits v o) s = .next
    (if v.getLsbD 1 then s.emit (motorFrame Config.params o.txmSel.toNat)
     else if v.getLsbD 0 then s.emit (pixelFrame Config.params o.txpStart o.txpCount o.txpRed o.txpGreen o.txpBlue
       o.txpStriplen) else s) := by
  unfold decodeEncBits
  cases v.getLsbD 1
  · cases v.getLsbD 0
    · rfl
    · simp [State.txPixel, truncByte_toNat]
  · simp [exec_txMotor_of_lt s o.txmSel.isLt]

/-- The operations of one cycle, unit by unit in descending bit order. -/
theorem execAll_decodeOpv_of_no_rst (h : v.getLsbD 9 = false) :
    execAll (decodeOpv v o) s = execAll (decodeUnits v o) s := by
  cases hu : decodeUnits v o with
  | nil => simp only [decodeOpv, h, hu, Bool.false_eq_true, if_false, execAll_single, exec_nop, execAll_nil]
  | cons i is => simp only [decodeOpv, h, hu, Bool.false_eq_true, if_false]

end Sys2Proof.Machine
end

