-- ==== Sys2Proof/Laws/Streams.lean ====
section
/-!
SUPPORT. What the operations raise and emit, and that a step is its operations performed in order.
-/

namespace Sys2Proof.Machine

/-! ### One operation -/

/-- An event raised stands behind those that wait. -/
theorem State.rxByte_evPending (p : Params) (b : Byte) (s : State) :
    (s.rxByte p b).evPending = s.evPending ++ (s.syn.rxByte p b).2.toList := by
  obtain ⟨hm, h⟩ | ⟨hm, h⟩ := s.rxByte_cases p b
  · simp [h, Syn.rxByte_noMatch hm]
  · simp [h, Syn.rxByte_match hm]

/-- A chunk appends to the events that wait and reads none of them. -/
theorem State.rxChunk_evPending_prefix (p : Params) : ∀ (bs : List Byte) (s : State),
    s.evPending <+: (s.rxChunk p bs).evPending
  | [], s => List.prefix_refl _
  | b :: bs, s => by
    have h := State.rxChunk_evPending_prefix p bs (s.rxByte p b)
    rw [State.rxByte_evPending] at h
    exact (List.prefix_append _ _).trans h

/-- Only `RST` drops a waiting event or byte: every other operation appends to both. -/
theorem exec_pending_prefix {i : Instr} {s t : State} (hi : i ≠ .rst) (h : exec i s = .next t) :
    s.evPending <+: t.evPending ∧ s.txPending <+: t.txPending := by
  cases i
  case rst => exact absurd rfl hi
  case swp bs =>
    by_cases hb : swapDomain bs = true
    · rw [exec_swp_of_domain s hb] at h; cases h; simp
    · rw [exec_swp_refused s (by simpa using hb)] at h; cases h
  case val n =>
    by_cases hb : n.length = 24
    · rw [exec_val_of_length s hb] at h; cases h; simp
    · rw [exec_val_refused s hb] at h; cases h
  case txMotor sel =>
    by_cases hb : sel < 4
    · rw [exec_txMotor_of_lt s hb] at h; cases h; simp [State.emit]
    · rw [exec_txMotor_refused s hb] at h; cases h
  case frameTelemetry w =>
    by_cases hb : w.length = 24
    · rw [exec_frameTelemetry_of_length s hb] at h; cases h
      exact ⟨State.rxChunk_evPending_prefix _ w s, by simp⟩
    · rw [exec_frameTelemetry_refused s hb] at h; cases h
  case rxByte b =>
    cases h
    exact ⟨by rw [State.rxByte_evPending]; exact List.prefix_append _ _, by simp⟩
  all_goals (cases h; simp [State.emit, State.txPixel, State.txMotor])

/-- What waits after an operation other than `RST` is what waited and what it raised. -/
theorem exec_evPending {i : Instr} {s t : State} (hi : i ≠ .rst) (h : exec i s = .next t) :
    t.evPending = s.evPending ++ eventsRaisedBy i s := by
  obtain ⟨l, hl⟩ := (exec_pending_prefix hi h).1
  simp [eventsRaisedBy, h, ← hl]

/-- The same of the bytes it emitted. -/
theorem exec_txPending {i : Instr} {s t : State} (hi : i ≠ .rst) (h : exec i s = .next t) :
    t.txPending = s.txPending ++ bytesEmittedBy i s := by
  obtain ⟨l, hl⟩ := (exec_pending_prefix hi h).2
  simp [bytesEmittedBy, h, ← hl]

/-- `RST` raises nothing (R230). -/
@[simp] theorem eventsRaisedBy_rst (s : State) : eventsRaisedBy .rst s = [] := by
  simp [eventsRaisedBy, State.clearOutputs]

/-- `RST` emits nothing. -/
@[simp] theorem bytesEmittedBy_rst (s : State) : bytesEmittedBy .rst s = [] := by
  simp [bytesEmittedBy, State.clearOutputs]

/-- `RX.BYTE` raises the event of a match and no other (R200). -/
@[simp] theorem eventsRaisedBy_rxByte (b : Byte) (s : State) :
    eventsRaisedBy (.rxByte b) s = (s.syn.rxByte Config.params b).2.toList := by
  simp [eventsRaisedBy, State.rxByte_evPending]

/-! ### A step is its operations -/

@[simp] theorem eventsRaisedByAll_nil (s : State) : eventsRaisedByAll [] s = [] := rfl

theorem eventsRaisedByAll_cons_next {i : Instr} {is : List Instr} {s t : State} (h : exec i s = .next t) :
    eventsRaisedByAll (i :: is) s = eventsRaisedBy i s ++ eventsRaisedByAll is t := by
  simp [eventsRaisedByAll, h]

@[simp] theorem bytesEmittedByAll_nil (s : State) : bytesEmittedByAll [] s = [] := rfl

theorem bytesEmittedByAll_cons_next {i : Instr} {is : List Instr} {s t : State} (h : exec i s = .next t) :
    bytesEmittedByAll (i :: is) s = bytesEmittedBy i s ++ bytesEmittedByAll is t := by
  simp [bytesEmittedByAll, h]

@[simp] theorem eventsRaisedByAll_single (i : Instr) (s : State) : eventsRaisedByAll [i] s = eventsRaisedBy i s := by
  cases h : exec i s <;> simp [eventsRaisedByAll, h]
@[simp] theorem bytesEmittedByAll_single (i : Instr) (s : State) : bytesEmittedByAll [i] s = bytesEmittedBy i s := by
  cases h : exec i s <;> simp [bytesEmittedByAll, h]

/-- What a step at the untimed level raises and emits is what its operation does. -/
theorem State.eventsRaised_operation {s : State} {i : Instr} {rest : List Stimulus} (h : s.input = .operation i :: rest) :
    s.eventsRaised = eventsRaisedBy i (s.setInput rest).clearOutputs := by
  simp [State.eventsRaised, State.performed, State.performedFrom, h]
theorem State.bytesEmitted_operation {s : State} {i : Instr} {rest : List Stimulus} (h : s.input = .operation i :: rest) :
    s.bytesEmitted = bytesEmittedBy i (s.setInput rest).clearOutputs := by
  simp [State.bytesEmitted, State.performed, State.performedFrom, h]

/-- A step that answers a next state performs its operations, in order, from the state after taking. -/
theorem step_performs {s t : State} (h : step s = .next t) : execAll s.performed s.performedFrom = .next t := by
  obtain ⟨hin, h⟩ | ⟨c, rest, hin, h⟩ | ⟨i, rest, hin, h⟩ | ⟨nbits, w, rest, is, hin, hd, h⟩ := step_cases h
  · simp only [State.performed, State.performedFrom, hin]; exact h
  · simp only [State.performed, State.performedFrom, hin]; exact h
  · simpa only [State.performed, State.performedFrom, hin, execAll_single] using h
  · simpa only [State.performed, State.performedFrom, hin, hd] using h

theorem evStream_succ_next {s t : State} (h : step s = .next t) (n : Nat) :
    evStream (n + 1) s = s.eventsRaised ++ evStream n t := by simp [evStream, h]

theorem txStream_succ_next {s t : State} (h : step s = .next t) (n : Nat) :
    txStream (n + 1) s = s.bytesEmitted ++ txStream n t := by simp [txStream, h]

theorem evDelivered_succ_next {s t : State} (h : step s = .next t) (n : Nat) :
    evDelivered (n + 1) s = s.eventsTaken ++ evDelivered n t := by simp [evDelivered, h]

theorem txDelivered_succ_next {s t : State} (h : step s = .next t) (n : Nat) :
    txDelivered (n + 1) s = s.bytesTaken ++ txDelivered n t := by simp [txDelivered, h]

end Sys2Proof.Machine
end

