-- ==== Sys2Proof/Tests/Slice0.lean ====
section
/-!
SUPPORT. The model's own tests. Expected values are from 95_test_vectors.md (vectors V-…, under its constants T1 where bytes of a
frame stand), from the examples of the rules, or worked out by hand from the rules; each test names its source. After them, for
every statement with hypotheses, a witness that meets them.
-/

namespace Sys2Proof.Tests

open Sys2Proof Sys2Proof.Machine

set_option Elab.async false

/-! ### Helpers -/

/-- Test instantiation T1 of 95_test_vectors.md. -/
def t1 : Params := { delim := 0xDEADBEEF, header := ⟨0xCA, 0xFE, 0xF0, 0x0D⟩, pixelOpcode := 0x50 }

/-- Frame F1 of 95_test_vectors.md, wire order. -/
def f1 : List Byte :=
  [0x00, 0x01, 0x00, 0x02, 0x00, 0x03, 0x00, 0x04, 0x00, 0x05, 0x00, 0x06, 0x00, 0x07, 0x00, 0x08, 0x00, 0x09, 0xEC, 0xB7,
    0xDE, 0xAD, 0xBE, 0xEF]

/-- F1n, normalized order. -/
def f1n : List Byte :=
  [0x01, 0x00, 0x02, 0x00, 0x03, 0x00, 0x04, 0x00, 0x05, 0x00, 0x06, 0x00, 0x07, 0x00, 0x08, 0x00, 0x09, 0x00, 0xB7, 0xEC,
    0xAD, 0xDE, 0xEF, 0xBE]

/-- Frame FB: F1 with the low bit of its checksum flipped. -/
def fb : List Byte := f1.set 19 0xB6

/-- The words of F1. -/
def words1 : TelemetryFrame := ⟨1, 2, 3, 4, 5, 6, 7, 8, 9, 0xECB7⟩

/-- The state an outcome goes on with. -/
def nextOf : Host.Outcome State Fault Refusal → Option State
  | .next t => some t
  | .fault _ => none
  | .refused _ => none

/-- The reason of a refusal. -/
def refusalOf : Host.Outcome State Fault Refusal → Option Refusal
  | .next _ => none
  | .fault _ => none
  | .refused r => some r

/-- A decoding as an option. -/
def okOf (e : Except DecodeError (List Instr)) : Option (List Instr) :=
  match e with
  | .ok is => some is
  | .error _ => none

/-- The reason a word is rejected. -/
def errOf (e : Except DecodeError (List Instr)) : Option DecodeError :=
  match e with
  | .ok _ => none
  | .error e => some e

/-- A state with both CRC registers and a partial frame, in the manner of V-RST-1. -/
def busy : State :=
  { State.reset with
    crcr := 0xBB3D, crcm := 0xFEE8, syn := ⟨0x00DEADBE, 7, 7, [(4, 0xDE), (5, 0xAD), (6, 0xBE)]⟩
    evPending := [.shortMatch 5], txPending := [⟨0x43, false⟩, ⟨0x02, true⟩], swpOut := [0x34, 0x12], valOut := some .fail }

/-- A port cycle that presents nothing, with a waiting event and a waiting byte taken. -/
def taking : PortCycle := { PortCycle.idle with evReady := true, txReady := true }

/-! ### WellFormed: one ill-formed term for each check -/

theorem test_wf_swp_odd : (Instr.swp [0x12, 0x34, 0x56]).wf t1 = false := by decide
theorem test_wf_swp_empty : (Instr.swp []).wf t1 = false := by decide
theorem test_wf_val_short : (Instr.val (f1n.take 23)).wf t1 = false := by decide
theorem test_wf_val_long : (Instr.val (f1n ++ [0x00])).wf t1 = false := by decide
theorem test_wf_txMotor_four : (Instr.txMotor 4).wf t1 = false := by decide
theorem test_wf_txPixel_high : (Instr.txPixel 256 0 0 0 0 0).wf t1 = false := by decide
theorem test_wf_txPixel_negative : (Instr.txPixel 0 0 0 0 0 (-1)).wf t1 = false := by decide
theorem test_wf_frameTelemetry_length : (Instr.frameTelemetry (f1.take 23)).wf t1 = false := by decide
theorem test_wf_frameTelemetry_delimiter : (Instr.frameTelemetry (f1.set 23 0x00)).wf t1 = false := by decide
theorem test_wf_accepts : (Instr.frameTelemetry f1).wf t1 = true ∧ (Instr.txMotor 3).wf t1 = true ∧
    (Instr.txPixel 0 8 255 0 0 120).wf t1 = true ∧ (Instr.swp [0x12, 0x34]).wf t1 = true := by decide

/-! ### Decode: a word written from the spec's encoding for every row (R88's bits; R81, R86, R87 with the first byte lowest).
The operand bytes above `OPV` stand where log entry 8 puts them. -/

theorem test_decode_rst : decodeTableWord 16 0b10_0000_0000 = some .rst := by decide +kernel
theorem test_decode_nop : decodeTableWord 16 0b00_0000_0000 = some .nop := by decide +kernel
theorem test_decode_crcInit : decodeTableWord 16 0b01_0000_0000 = some .crcInit := by decide +kernel
theorem test_decode_crcUpd : decodeTableWord 16 0x56_0080 = some (.crcUpd 0x56) := by decide +kernel
theorem test_decode_crcUpdm : decodeTableWord 16 0x56_0040 = some (.crcUpdm 0x56) := by decide +kernel
theorem test_decode_rxClr : decodeTableWord 16 0b00_0010_0000 = some .rxClr := by decide +kernel
theorem test_decode_rxByte : decodeTableWord 16 0xEF00_0010 = some (.rxByte 0xEF) := by decide +kernel
theorem test_decode_swp : decodeTableWord 16 0x3412_0000_0008 = some (.swp [0x12, 0x34]) := by decide +kernel
theorem test_decode_val :
    decodeTableWord 16 (0x0004 + 256 ^ 6 * 0xBEEFDEADECB700090008000700060005000400030002_0001)
      = some (.val f1n) := by decide +kernel
theorem test_decode_txMotor : decodeTableWord 16 (0x0002 + 256 ^ 30 * 0x02) = some (.txMotor 2) := by decide +kernel
theorem test_decode_txPixel :
    decodeTableWord 16 (0x0001 + 256 ^ 31 * 0x780000FF0800) = some (.txPixel 0 8 255 0 0 120) := by decide +kernel
theorem test_decode_motorBrake : okOf (decodeWord t1 64 0x00433031_0DF0FECA) = some [.motorBrake] := by decide +kernel
theorem test_decode_motorStop : okOf (decodeWord t1 64 0x0143F0F0_0DF0FECA) = some [.motorStop] := by decide +kernel
theorem test_decode_motorCcw : okOf (decodeWord t1 64 0x0243F1B0_0DF0FECA) = some [.motorCcw] := by decide +kernel
theorem test_decode_motorCw : okOf (decodeWord t1 64 0x03433171_0DF0FECA) = some [.motorCw] := by decide +kernel
/-- V-ENC-5. -/
theorem test_decode_framePixel : okOf (decodeWord t1 104 0x0000FF08_0078502D_680DF0FE_CA) =
    some [.framePixel 0x78 0x00 0x08 0xFF 0x00 0x00] := by decide +kernel
/-- F1. -/
theorem test_decode_frameTelemetry :
    okOf (decodeWord t1 192 0xEFBEADDE_B7EC0900_08000700_06000500_04000300_02000100) = some [.frameTelemetry f1] := by
  decide +kernel
/-- R88: bits 7 and 6 both set; several units in one cycle, in descending bit order. -/
theorem test_decode_both_updates : okOf (decodeWord t1 16 0x41_00C0) = some [.crcUpd 0x41, .crcUpdm 0x41] := by decide +kernel
theorem test_decode_descending : okOf (decodeWord t1 16 0x3412_4300_01_2A) =
    some [.crcInit, .rxClr, .swp [0x12, 0x34], .txMotor 0] := by decide +kernel
/-- One word, several operations: no single instruction (log entry 9). -/
theorem test_decode_several_is_no_row : decodeTableWord 16 0x00C0 = none := by decide +kernel

/-! Rejections, by name. -/

theorem test_reject_format : errOf (decodeWord t1 32 0) = some .format := by decide +kernel
theorem test_reject_reserved : errOf (decodeWord t1 16 0x0400) = some .reservedBits := by decide +kernel
theorem test_reject_selector : errOf (decodeWord t1 16 (0x0002 + 256 ^ 30 * 0x04)) = some .selectorBits := by decide +kernel
theorem test_reject_too_long : errOf (decodeWord t1 64 (256 ^ 8)) = some .tooLong := by decide +kernel
theorem test_reject_header : errOf (decodeWord t1 64 0x0043_3031_0DF0_FECB) = some .header := by decide +kernel
theorem test_reject_opcode : errOf (decodeWord t1 64 0x0044_3031_0DF0_FECA) = some .opcode := by decide +kernel
theorem test_reject_checksum : errOf (decodeWord t1 64 0x0043_3030_0DF0_FECA) = some .checksum := by decide +kernel
/-- R97 (a): a motor frame with parameter 4 and the CRC of its content, `crc16r([43, 04]) = 0xF330`, worked out from R110: no
row is such a frame. -/
theorem test_reject_motor_parameter : errOf (decodeWord t1 64 0x0443_F330_0DF0_FECA) = some .motorParameter := by decide +kernel
theorem test_reject_delimiter : errOf (decodeWord t1 192 0xEEBEADDE_B7EC0900_08000700_06000500_04000300_02000100) = some .delimiter := by
  decide +kernel

/-! ### The meanings: at most two tests an operation, each one step on a small state -/

/-- V-RST-1. -/
theorem test_rst : nextOf (exec .rst busy) = some State.reset := by decide
/-- V-RST-3, "in any state". -/
theorem test_nop : nextOf (exec .nop busy) = some busy := by decide
/-- V-RST-5. -/
theorem test_crcInit : nextOf (exec .crcInit busy) = some { busy with crcr := 0, crcm := 0 } := by decide
/-- V-CRC-1, row (1234, 56); the example of R116. -/
theorem test_crcUpd : nextOf (exec (.crcUpd 0x56) { busy with crcr := 0x1234 }) = some { busy with crcr := 0xE993 } := by
  decide +kernel
/-- V-CRC-1, row (8000, 00): a one at bit 15, where an arithmetic shift would show. -/
theorem test_crcUpd_logical_shift :
    nextOf (exec (.crcUpd 0x00) { busy with crcr := 0x8000 }) = some { busy with crcr := 0x0080 } := by decide +kernel
/-- V-CRC-1, row (1234, 56); the example of R117. -/
theorem test_crcUpdm : nextOf (exec (.crcUpdm 0x56) { busy with crcm := 0x1234 }) = some { busy with crcm := 0x3598 } := by
  decide +kernel
/-- V-CRC-1, row (FFFF, 00): bit 15 is tested before the shift. -/
theorem test_crcUpdm_high_bit :
    nextOf (exec (.crcUpdm 0x00) { busy with crcm := 0xFFFF }) = some { busy with crcm := 0xFD02 } := by decide +kernel
/-- V-RST-4: the waiting event stays. -/
theorem test_rxClr : nextOf (exec .rxClr busy) = some { busy with syn := ⟨0, 0, 0, []⟩ } := by decide
/-- V-SYN-1 and V-SYN-19, step 23: the byte that completes F1. -/
theorem test_rxByte_frame : ((State.reset.rxChunk t1 (f1.take 23)).rxByte t1 0xEF) =
    { State.reset with evPending := [.frameOk words1] } := by decide +kernel
/-- V-SYN-17: the 25th byte, where `IDX` wraps and `CNT` saturates. -/
theorem test_rxByte_wrap :
    let s := (State.reset.rxChunk t1 ((List.range 24).map fun i => BitVec.ofNat 8 (i + 1))).rxByte t1 0x19
    s.syn.acc = 0x16171819 ∧ s.syn.idx = 1 ∧ s.syn.cnt = 24 ∧ s.syn.buf.read 0 = 0x19 ∧ s.syn.buf.read 23 = 0x18 ∧
      s.evPending = [] := by decide +kernel
/-- The example of R150, V-SWP-2. -/
theorem test_swp : nextOf (exec (.swp [0x12, 0x34, 0xAB, 0xCD]) State.reset) =
    some { State.reset with swpOut := [0x34, 0x12, 0xCD, 0xAB] } := by decide +kernel
/-- V-SWP-6. -/
theorem test_swp_odd : refusalOf (exec (.swp [0x12, 0x34, 0x56]) State.reset) = some .swapLength := by decide +kernel
/-- V-VAL-1. -/
theorem test_val_pass : nextOf (exec (.val f1n) State.reset) = some { State.reset with valOut := some (.pass words1) } := by
  decide +kernel
/-- V-VAL-5. -/
theorem test_val_fail : nextOf (exec (.val (f1n.set 19 0xED)) State.reset) = some { State.reset with valOut := some .fail } := by
  decide +kernel
/-- V-ENC-3. -/
theorem test_txMotor : (State.reset.txMotor t1 2).txPending =
    [⟨0xCA, false⟩, ⟨0xFE, false⟩, ⟨0xF0, false⟩, ⟨0x0D, false⟩, ⟨0xB0, false⟩, ⟨0xF1, false⟩, ⟨0x43, false⟩, ⟨0x02, true⟩] := by
  decide +kernel
/-- V-ENC-10. -/
theorem test_txMotor_four : refusalOf (exec (.txMotor 4) State.reset) = some .motorSelector := by decide +kernel
/-- V-ENC-8: `stripLength` last among the operands, first in the frame. -/
theorem test_txPixel : (State.reset.txPixel t1 10 5 0x12 0x34 0x56 60).txPending.map TxByte.byte =
    [0xCA, 0xFE, 0xF0, 0x0D, 0xFB, 0x0F, 0x50, 0x3C, 0x0A, 0x05, 0x12, 0x34, 0x56] := by decide +kernel
/-- V-ENC-9: operands wider than a byte. -/
theorem test_txPixel_truncates : (State.reset.txPixel t1 256 8 (-1) 0x1FF 0 120).txPending.map TxByte.byte =
    [0xCA, 0xFE, 0xF0, 0x0D, 0x29, 0xDD, 0x50, 0x78, 0x00, 0x08, 0xFF, 0xFF, 0x00] := by decide +kernel
/-- V-ENC-1 to V-ENC-4, bytes 4 to 7, which hold under any constants; a following command waits behind. -/
theorem test_motorBrake : (nextOf (exec .motorBrake State.reset)).map (fun t => (t.txPending.drop 4).map TxByte.byte) =
    some [0x31, 0x30, 0x43, 0x00] := by decide +kernel
theorem test_motorStop : (nextOf (exec .motorStop State.reset)).map (fun t => (t.txPending.drop 4).map TxByte.byte) =
    some [0xF0, 0xF0, 0x43, 0x01] := by decide +kernel
theorem test_motorCcw : (nextOf (exec .motorCcw State.reset)).map (fun t => (t.txPending.drop 4).map TxByte.byte) =
    some [0xB0, 0xF1, 0x43, 0x02] := by decide +kernel
theorem test_motorCw : (nextOf (exec .motorCw State.reset)).map (fun t => (t.txPending.drop 4).map TxByte.byte) =
    some [0x71, 0x31, 0x43, 0x03] := by decide +kernel
/-- The fields of V-ENC-8 in frame order; the bytes after the CRC hold but for `PIXEL_OPCODE` under any constants. -/
theorem test_framePixel : (nextOf (exec (.framePixel 0x3C 0x0A 0x05 0x12 0x34 0x56) State.reset)).map
    (fun t => (t.txPending.drop 7).map TxByte.byte) = some [0x3C, 0x0A, 0x05, 0x12, 0x34, 0x56] := by decide +kernel
/-- V-SYN-2: a frame with a wrong checksum, fed whole. -/
theorem test_frameTelemetry : State.reset.rxChunk t1 fb = { State.reset with evPending := [.invalidFrame fb] } := by
  decide +kernel
theorem test_frameTelemetry_length : refusalOf (exec (.frameTelemetry (f1.take 23)) State.reset) = some .frameLength := by
  decide +kernel

/-! The whole receive path, the ports and the step. -/

/-- V-SYN-14: the delimiter inside the data. -/
theorem test_delimiter_inside : (State.reset.rxChunk t1
    [0x12, 0x34, 0xDE, 0xAD, 0xBE, 0xEF, 0x00, 0x04, 0x00, 0x05, 0x00, 0x06, 0x00, 0x07, 0x00, 0x08, 0x00, 0x00, 0x9C, 0x24,
      0xDE, 0xAD, 0xBE, 0xEF]) = { State.reset with evPending := [.shortMatch 6, .shortMatch 18] } := by decide +kernel
/-- V-SYN-20, `DELIM = 0`. -/
theorem test_zero_delimiter : State.reset.rxChunk { t1 with delim := 0 } [0x00, 0x00, 0x00] =
    { State.reset with evPending := [.shortMatch 1, .shortMatch 1, .shortMatch 1] } := by decide +kernel
/-- V-EV-1: word 9 in the highest 16 of the 160 bits, word 0 in the lowest. -/
theorem test_ev_words : ({ State.reset with evPending := [.frameOk words1] } : State).outputPorts.evWords =
    some 0xECB7_0009_0008_0007_0006_0005_0004_0003_0002_0001#160 := by decide +kernel
/-- V-EV-2: byte 23 in the highest 8 of the 192 bits. -/
theorem test_ev_raw : ({ State.reset with evPending := [.invalidFrame fb] } : State).outputPorts.evRaw =
    some 0xEFBEADDE_B6EC0900_08000700_06000500_04000300_02000100#192 := by decide +kernel
/-- R47: with both encoder channels offered, `txm_fire` alone; R49: with an event waiting, no `rx_fire`. -/
theorem test_portOpv : portOpv { PortCycle.idle with txmValid := true, txpValid := true, rxValid := true }
    { State.reset with evPending := [.shortMatch 5] } = 0x002#10 := by decide +kernel
/-- R49: in the cycle that takes the last byte of a frame no command is accepted; in the one that takes the event a byte is. -/
theorem test_portOpv_taking : portOpv { taking with txmValid := true, rxValid := true }
    { State.reset with evPending := [.shortMatch 5], txPending := [⟨0x02, true⟩] } = 0x010#10 := by decide +kernel
/-- A step on a port cycle that takes the event and one byte. -/
theorem test_step_takes : nextOf (step { busy with input := [.cycle taking] }) =
    some { busy with evPending := [], txPending := [⟨0x02, true⟩], swpOut := [], valOut := none } := by decide +kernel
/-- V-CRC-7: both strobes in one step, byte 41. -/
theorem test_step_both_updates : (nextOf (step (State.reset.withFetchWord 16 0x41_00C0))).map (fun t => (t.crcr, t.crcm)) =
    some (crc16r [0x41], crc16m [0x41]) := by decide +kernel
/-- The word of `CRC.UPD 0x31`, the first step of program P1. -/
theorem test_step_withFetchWord : (nextOf (step (State.reset.withFetchWord 16 0x31_0080))).map State.crcr = some 0xD4C1 := by
  decide +kernel
/-- A word that is no operation is refused under its own name. -/
theorem test_step_undecodable : refusalOf (step (State.reset.withFetchWord 16 0x0400)) =
    some (.undecodable .reservedBits) := by decide +kernel

/-! ### Witnesses: for each statement with hypotheses, a state and operands that meet them together -/

/-- A state with a full window but for its last byte, under T1: the first 23 bytes of F1 received. -/
def nearlyFull : Syn := (State.reset.rxChunk t1 (f1.take 23)).syn

/-- The frame of all-zero words (FZ) is correct; it is used where a frame under any constants is wanted. -/
def fz : List Byte := List.replicate 20 0x00 ++ [0xDE, 0xAD, 0xBE, 0xEF]

/-- For any delimiter there is an accumulator and a byte that complete it, and a byte that does not. -/
theorem witness_match (d : Word32) : ((d >>> 8) <<< 8) ||| (d.setWidth 8).zeroExtend 32 = d := by
  apply BitVec.eq_of_getLsbD_eq
  intro i hi
  simp only [BitVec.getLsbD_or, BitVec.getLsbD_shiftLeft, BitVec.getLsbD_ushiftRight, BitVec.truncate_eq_setWidth,
    BitVec.getLsbD_setWidth, hi]
  by_cases h : i < 8
  · simp [h]
  · have : 8 + (i - 8) = i := by omega
    simp [h, this]

theorem witness_noMatch (d : Word32) : ((d >>> 8) <<< 8) ||| (d.setWidth 8 + 1#8).zeroExtend 32 ≠ d := by
  intro h
  have h8 := congrArg (BitVec.setWidth 8) h
  have hl : BitVec.setWidth 8 (((d >>> 8) <<< 8) ||| (d.setWidth 8 + 1#8).zeroExtend 32) = d.setWidth 8 + 1#8 := by
    apply BitVec.eq_of_getLsbD_eq
    intro i hi
    have h32 : i < 32 := by omega
    simp only [BitVec.getLsbD_setWidth, BitVec.getLsbD_or, BitVec.getLsbD_shiftLeft, BitVec.truncate_eq_setWidth]
    simp [hi, h32]
  rw [hl] at h8
  have hn := congrArg BitVec.toNat h8
  simp only [BitVec.toNat_add, BitVec.toNat_setWidth, BitVec.toNat_ofNat] at hn
  omega

/-- SingleBitFlipChangesCrc, EmbeddedCrcPassesAndFlipsFail: the lengths and the ends of both ranges of bits. -/
theorem witness_contents : (f1n.take 18).length = 18 ∧ (f1n.drop 20).length = 4 ∧ (0 : Nat) < 144 ∧ 143 < 144 ∧ (0 : Nat) < 16 ∧
    15 < 16 := by decide
/-- LeadingZerosAreInvisible. -/
theorem witness_leadingZeros : t1.delimBytes.length = 4 := by decide
/-- CrcInitClearsBothRegisters, CrcUpdUpdatesCrcrAlone, RxClrEmptiesTheSynchronizer, SwpIsItsPairTransactions,
RstGivesTheResetState: vectors their rows match, the ignored bits set. -/
theorem witness_vectors : (0x1C0#10 &&& 0x300#10 = 0x100#10) ∧ (0x0C0#10 &&& 0x380#10 = 0x080#10) ∧
    (0x030#10 &&& 0x220#10 = 0x020#10) ∧ (0x1FF#10 &&& 0x208#10 = 0x008#10) ∧ (0x3FF#10).getLsbD 9 = true := by decide
/-- UpdatesWithoutInitContinueTheMessage, both clauses. -/
theorem witness_updates : ({ State.reset with crcr := 0xC0C1 } : State).crcr = crc16r [0x01] ∧
    ({ State.reset with crcm := 0x8005 } : State).crcm = crc16m [0x01] := by decide +kernel
/-- RxByteWithoutMatch, at the last index. -/
theorem witness_rxByteWithoutMatch : ∃ (b : Byte) (s : State), s.syn.buf.wf = true ∧
    (s.syn.acc <<< 8) ||| b.zeroExtend 32 ≠ Config.params.delim :=
  ⟨Config.params.delim.setWidth 8 + 1#8,
    { State.reset with syn := ⟨Config.params.delim >>> 8, 23, 23, [(4, 0xDE), (22, 0xAD)]⟩ }, by decide, witness_noMatch _⟩
/-- RxByteShortMatch, at both ends of the range: the first byte and the 23rd. -/
theorem witness_rxByteShortMatch : ∀ n : BitVec 5, n ∈ [0#5, 22#5] → ∃ (b : Byte) (s : State),
    (s.syn.acc <<< 8) ||| b.zeroExtend 32 = Config.params.delim ∧ s.syn.cnt.toNat + 1 < 24 ∧ s.syn.cnt = n := by
  intro n hn
  refine ⟨Config.params.delim.setWidth 8, { State.reset with syn := ⟨Config.params.delim >>> 8, n, n, []⟩ },
    witness_match _, ?_, rfl⟩
  simp only [List.mem_cons, List.not_mem_nil, or_false] at hn
  obtain rfl | rfl := hn <;> decide
/-- RxByteFullWindow, at both ends: 23 and 24 bytes since the last sync reset. -/
theorem witness_rxByteFullWindow : ∀ n : BitVec 5, n ∈ [23#5, 24#5] → ∃ (b : Byte) (s : State), s.syn.buf.wf = true ∧
    (s.syn.acc <<< 8) ||| b.zeroExtend 32 = Config.params.delim ∧ 24 ≤ s.syn.cnt.toNat + 1 ∧ s.syn.cnt = n := by
  intro n hn
  refine ⟨Config.params.delim.setWidth 8, { State.reset with syn := ⟨Config.params.delim >>> 8, 23, n, [(22, 0xAD)]⟩ },
    rfl, witness_match _, ?_, rfl⟩
  simp only [List.mem_cons, List.not_mem_nil, or_false] at hn
  obtain rfl | rfl := hn <;> decide
/-- FullWindowEndsInDelimiter. -/
theorem witness_fullWindow : nearlyFull.wf = true ∧ nearlyFull.accTracks ∧ 24 ≤ nearlyFull.cnt.toNat + 1 ∧
    (nearlyFull.shiftIn 0xEF).acc = t1.delim := by
  refine ⟨by decide +kernel, ?_, by decide +kernel, by decide +kernel⟩
  unfold Syn.accTracks
  decide +kernel
/-- ConstantStreamRaisesNothing: the example of R135, and the byte 0x00. -/
theorem witness_constantStream : ∀ b : Byte, b ∈ [0x55#8, 0x00#8] →
    ∀ k, 0 < k → k ≤ 4 → accAfter 0#32 (List.replicate k b) ≠ t1.delim := by
  have h : ∀ b : Byte, b ∈ [0x55#8, 0x00#8] → ∀ k, k ≤ 4 → accAfter 0#32 (List.replicate k b) ≠ t1.delim := by decide +kernel
  exact fun b hb k _ hk => h b hb k hk
/-- TelemetryRowFeedsItsBytes, ValReportsTheVerdict, VerdictOnTheWireFrame: both lengths. -/
theorem witness_lengths : f1.length = 24 ∧ f1n.length = 24 ∧ (f1.take 23).length ≠ 24 ∧ (f1 ++ [0x00]).length ≠ 24 := by decide

theorem noEarlyMatch_of {p : Params} {bs : List Byte}
    (h : ∀ k, k < bs.length → k = 0 ∨ accAfter 0#32 (bs.take k) ≠ p.delim) : NoEarlyMatch p bs := by
  intro k h0 hk
  obtain rfl | h' := h k hk
  · omega
  · exact h'

/-- BackToBackFramesAreReceived: F1 then FZ (V-SYN-3's shape). -/
theorem witness_backToBack : State.reset.syn = Syn.empty ∧ ∀ w, w ∈ [f1, fz] → w.length = 24 ∧ endsInDelim t1 w = true ∧
    NoEarlyMatch t1 w ∧ crc16r (wireContent w) = wireWord w 9 := by
  refine ⟨rfl, fun w hw => ?_⟩
  simp only [List.mem_cons, List.not_mem_nil, or_false] at hw
  obtain rfl | rfl := hw
  · exact ⟨by decide, by decide, noEarlyMatch_of (by decide +kernel), by decide +kernel⟩
  · exact ⟨by decide, by decide, noEarlyMatch_of (by decide +kernel), by decide +kernel⟩
/-- NoiseThenFrameYieldsTheFrame: V-SYN-4 and the bad frame FB. -/
theorem witness_noise : ∀ w, w ∈ [f1, fb] → State.reset.syn = Syn.empty ∧ w.length = 24 ∧ endsInDelim t1 w = true ∧
    NoEarlyMatch t1 ([0x09, 0x08, 0x07, 0x06, 0x05, 0x04] ++ w) := by
  intro w hw
  simp only [List.mem_cons, List.not_mem_nil, or_false] at hw
  obtain rfl | rfl := hw
  · exact ⟨rfl, by decide, by decide, noEarlyMatch_of (by decide +kernel)⟩
  · exact ⟨rfl, by decide, by decide, noEarlyMatch_of (by decide +kernel)⟩
/-- EarlyDelimiterCostsTheFrame: V-SYN-7's first half, and 19 bytes before the delimiter. -/
theorem witness_earlyDelimiter : ∀ pre : List Byte, pre ∈ [[], List.replicate 19 0x77#8] →
    State.reset.syn = Syn.empty ∧ pre.length + 4 < 24 ∧ NoEarlyMatch t1 (pre ++ t1.delimBytes) := by
  intro pre hp
  simp only [List.mem_cons, List.not_mem_nil, or_false] at hp
  obtain rfl | rfl := hp
  · exact ⟨rfl, by decide, noEarlyMatch_of (by decide +kernel)⟩
  · exact ⟨rfl, by decide, noEarlyMatch_of (by decide +kernel)⟩
/-- ZeroFirstDelimiterMatchesEarly: a delimiter for each clause, the first that of R242's example. -/
theorem witness_zeroFirst : State.reset.syn = Syn.empty ∧
    (({ t1 with delim := 0x00ADBEEF } : Params).delimBytes.getD 0 0#8 = 0x00#8 ∧
      ({ t1 with delim := 0x00ADBEEF } : Params).delimBytes.getD 1 0#8 ≠ 0x00#8) ∧
    (({ t1 with delim := 0x0000BEEF } : Params).delimBytes.getD 0 0#8 = 0x00#8 ∧
      ({ t1 with delim := 0x0000BEEF } : Params).delimBytes.getD 1 0#8 = 0x00#8 ∧
      ({ t1 with delim := 0x0000BEEF } : Params).delimBytes.getD 2 0#8 ≠ 0x00#8) ∧
    ({ t1 with delim := 0 } : Params).delim = 0x00000000#32 := by decide
/-- SwapPairsExchangesEachPair, SwapPairsIsAnInvolution, SwpIsItsPairTransactions, SwpGivesTheSwappedBytes. -/
theorem witness_swap : swapDomain [0x12, 0x34] = true ∧ ([0x12, 0x34, 0xAB, 0xCD] : List Byte).length % 2 = 0 ∧
    ([] : List Byte).length % 2 = 0 ∧ ¬ (([0x12, 0x34, 0x56] : List Byte).length % 2 = 0 ∧ ([0x12, 0x34, 0x56] : List Byte) ≠ []) ∧
    ¬ (([] : List Byte).length % 2 = 0 ∧ ([] : List Byte) ≠ []) := by decide
/-- TxMotorEmitsItsFrame: both ends of each clause. -/
theorem witness_txMotor : (0, 0x31#8, 0x30#8) ∈
      [(0, 0x31#8, 0x30#8), (1, 0xF0#8, 0xF0#8), (2, 0xB0#8, 0xF1#8), (3, 0x71#8, 0x31#8)] ∧
    (3, 0x71#8, 0x31#8) ∈ [(0, 0x31#8, 0x30#8), (1, 0xF0#8, 0xF0#8), (2, 0xB0#8, 0xF1#8), (3, 0x71#8, 0x31#8)] ∧ 4 ≤ 4 := by
  decide
/-- MotorRowsAreTxMotor. -/
theorem witness_motorRows : Instr.motorCw ∈ [Instr.motorBrake, .motorStop, .motorCcw, .motorCw] := by decide
/-- EmittedFramesValidateThemselves: a frame of each kind. -/
theorem witness_emitted :
    (∃ sel, sel < 4 ∧ motorFrame t1 3 = motorFrame t1 sel) ∧
    (∃ a b c d e g, pixelFrame t1 0 8 255 0 0 120 = pixelFrame t1 a b c d e g) :=
  ⟨⟨3, by decide, rfl⟩, ⟨_, _, _, _, _, _, rfl⟩⟩
/-- OperationsCompleteOrAreRefused: an accepted form and a form of each refusal. -/
theorem witness_accepted : (Instr.swp [0x12, 0x34]).accepted = true ∧ (Instr.swp []).accepted = false ∧
    (Instr.val []).accepted = false ∧ (Instr.txMotor 4).accepted = false ∧ (Instr.frameTelemetry []).accepted = false := by decide
/-- WritersOfEachRegister: an operation that answers a next state and changes a register. -/
theorem witness_writers : ∃ t, exec (.crcUpd 0x01) State.reset = .next t ∧ t.crcr ≠ State.reset.crcr :=
  ⟨_, rfl, by decide +kernel⟩
/-- OneEventExactlyAtAMatch: both clauses. -/
theorem witness_oneEvent : (∃ (b : Byte) (s : State), (s.syn.acc <<< 8) ||| b.zeroExtend 32 = Config.params.delim) ∧
    (∃ (b : Byte) (s : State), (s.syn.acc <<< 8) ||| b.zeroExtend 32 ≠ Config.params.delim) :=
  ⟨⟨Config.params.delim.setWidth 8, { State.reset with syn := ⟨Config.params.delim >>> 8, 0, 0, []⟩ }, witness_match _⟩,
    ⟨Config.params.delim.setWidth 8 + 1#8, { State.reset with syn := ⟨Config.params.delim >>> 8, 0, 0, []⟩ },
      witness_noMatch _⟩⟩
/-- OrderWithinACycleIsIrrelevant: two operations of one cycle, the other way round. -/
theorem witness_order : [Instr.crcUpdm 0, .crcUpd 0].Perm (decodeOpv 0x0C0#10 PortOperands.zero) := by
  have h : decodeOpv 0x0C0#10 PortOperands.zero = [.crcUpd 0, .crcUpdm 0] := by decide +kernel
  rw [h]
  exact List.Perm.swap _ _ _
/-- DecodingAnEncodingGivesItBack: an instruction of each kind of word. -/
theorem witness_encoding : (Instr.swp [0x12, 0x34, 0xAB, 0xCD]).wf t1 = true ∧ (Instr.val f1n).wf t1 = true ∧
    (Instr.motorCw).wf t1 = true ∧ (Instr.frameTelemetry f1).wf t1 = true ∧ (Instr.txPixel 255 0 255 0 255 0).wf t1 = true := by
  decide
/-- StepPerformsThePresentation: each of its three presentations. -/
theorem witness_step : ({ busy with input := [.cycle taking] } : State).input = .cycle taking :: [] ∧
    ({ busy with input := [.operation .crcInit, .cycle taking] } : State).input = .operation .crcInit :: [.cycle taking] ∧
    decodeTableWord 16 0x0200 = some .rst := ⟨rfl, rfl, test_decode_rst⟩

/-- A cycle with everything at once, the reset included. -/
def everything (rst : Bool) : PortCycle :=
  ⟨rst, true, true, true, true, true, true, true, true, true, false, false, PortOperands.zero⟩

/-- ResetCycleOverridesEverything, EveryPortCycleCompletes. -/
theorem witness_resetCycle : ({ busy with input := [.cycle (everything true)] } : State).input = .cycle (everything true) :: [] ∧
    (everything true).rst = true ∧
    ∀ x, x ∈ ({ busy with input := [.cycle (everything true)] } : State).input → x.isCycle = true := by
  refine ⟨rfl, rfl, fun x hx => ?_⟩
  obtain rfl := List.mem_singleton.mp hx
  rfl
/-- WaitingOutputsHoldTheirInputs, PortPriorities, OutputsLeaveInOrder: a cycle without reset from a state with an event and
bytes waiting. -/
theorem witness_waiting : ∃ s t c rest, s.input = .cycle c :: rest ∧ c.rst = false ∧ step s = .next t ∧
    c.evReady = false ∧ s.evPending ≠ [] ∧ c.rxClr = true ∧ c.txReady = false ∧ s.txPending ≠ [] ∧ c.crcInit = true :=
  ⟨{ busy with input := [.cycle (everything false)] }, _, _, _, rfl, rfl, rfl, rfl, by decide, rfl, rfl, by decide, rfl⟩
/-- The other clauses of the same three: the last byte of a frame taken, both encoder channels offered to an idle encoder,
no `rx_clr`. -/
theorem witness_taking : (∃ s t c rest, s.input = .cycle c :: rest ∧ c.rst = false ∧ step s = .next t ∧ c.txReady = true ∧
      s.txPending ≠ []) ∧
    (∃ s t c rest, s.input = .cycle c :: rest ∧ c.rst = false ∧ step s = .next t ∧ c.txmValid = true ∧ c.txpValid = true ∧
      s.txPending = []) ∧
    (∃ s t c rest, s.input = .cycle c :: rest ∧ c.rst = false ∧ step s = .next t ∧ c.evReady = false ∧ s.evPending ≠ [] ∧
      c.rxClr = false) :=
  ⟨⟨{ State.reset with txPending := [⟨0x02, true⟩], input := [.cycle { taking with txmValid := true }] }, _, _, _, rfl, rfl, rfl,
      rfl, by decide⟩,
    ⟨{ State.reset with input := [.cycle { PortCycle.idle with txmValid := true, txpValid := true }] }, _, _, _, rfl, rfl, rfl,
      rfl, rfl, rfl⟩,
    ⟨{ busy with input := [.cycle PortCycle.idle] }, _, _, _, rfl, rfl, rfl, rfl, by decide, rfl⟩⟩
/-- PortDrivenRunsHoldOneEventAndOneFrame: one event and two bytes waiting. -/
theorem witness_portDriven : ∃ s t : State, s.PortDriven ∧ step s = .next t ∧ s.evPending ≠ [] ∧ s.txPending ≠ [] := by
  refine ⟨{ busy with input := [.cycle taking] }, _, ⟨fun x hx => ?_, by decide, by decide⟩, rfl, by decide, by decide⟩
  obtain rfl := List.mem_singleton.mp hx
  rfl
/-- GoodStateKept: a state with a partial frame and a waiting event. -/
theorem witness_good : ∃ s t : State, s.Good Config.params ∧ step s = .next t ∧ s.evPending ≠ [] ∧ s.syn.cnt = 7 := by
  refine ⟨{ busy with input := [.operation .crcInit] }, _, ⟨by decide, ?_, ?_, ?_⟩, rfl, by decide, rfl⟩
  · show busy.syn.accTracks
    unfold Syn.accTracks
    decide +kernel
  · intro e he
    obtain rfl := List.mem_singleton.mp he
    decide
  · intro v hv
    cases hv
    rfl
/-- EventPortsCarryTheEvent: a state for each of its four clauses. -/
theorem witness_eventPorts : ({ State.reset with evPending := [.frameOk words1] } : State).evPending = .frameOk words1 :: [] ∧
    ({ State.reset with evPending := [.invalidFrame fb] } : State).evPending = .invalidFrame fb :: [] ∧ fb.length = 24 ∧
    ({ State.reset with evPending := [.shortMatch 23] } : State).evPending = .shortMatch 23 :: [] ∧
    State.reset.evPending = [] := by decide
/-- PixelOpcodeIsAnyButTheMotorOpcode. -/
theorem witness_pixelOpcode : (0x42#8 : Byte) ≠ 0x43#8 ∧ (0x44#8 : Byte) ≠ 0x43#8 := by decide
/-- InstancesAreIndependent: an instance that goes on, and one whose step is refused. -/
theorem witness_instances : (∃ (m : Instances) (s t : State), m[1]? = some s ∧ step s = .next t) ∧
    (∃ (m : Instances) (s : State), m[0]? = some s ∧ step s = .refused .swapLength) :=
  ⟨⟨[busy, State.reset], _, _, rfl, rfl⟩, ⟨[{ busy with input := [.operation (.swp [])] }, State.reset], _, rfl, rfl⟩⟩

/-! ### The streams -/

/-- The operations of program P3. -/
def p3 : List Instr := [.motorCw, .txPixel 0 8 255 0 0 120, .motorStop]
/-- P3 presented one operation a step, from reset. -/
def p3State : State := { State.reset with input := p3.map .operation }
/-- Operations whose last completes the delimiter, and a state in which three bytes of it have come. -/
def matchOps : List Instr := [.crcInit, .rxByte (Config.params.delim.setWidth 8)]
def matchState : State :=
  { State.reset with syn := ⟨Config.params.delim >>> 8, 3, 3, []⟩, input := matchOps.map .operation }

/-- P3: 29 bytes on `TX`, the last frame whole in it (`F0 F0 43 01`, `tx_last` with its last byte), and the first frame's CRC,
opcode and parameter; nothing of the last frame is taken in the three steps. -/
theorem test_stream_tx : (txStream 3 p3State).length = 29 ∧
    (txStream 3 p3State).drop 25 = [⟨0xF0, false⟩, ⟨0xF0, false⟩, ⟨0x43, false⟩, ⟨0x01, true⟩] ∧
    ((txStream 3 p3State).drop 4).take 4 = [⟨0x71, false⟩, ⟨0x31, false⟩, ⟨0x43, false⟩, ⟨0x03, true⟩] ∧
    (txDelivered 3 p3State).length = 21 := by decide +kernel
/-- P5's last event: the byte that completes the delimiter as the fourth since the sync reset puts `SHORT_MATCH(4)` into `EV`
in its own step. -/
theorem test_stream_ev : evStream 2 matchState = [.shortMatch 4] := by
  have h : matchState.syn.rxByte Config.params (Config.params.delim.setWidth 8) = (Syn.empty, some (.shortMatch 4)) := by
    have hm : (matchState.syn.shiftIn (Config.params.delim.setWidth 8)).acc = Config.params.delim := witness_match _
    rw [Syn.rxByte_match hm]
    rfl
  rw [evStream_succ_next (t := matchState.setInput [.operation (.rxByte (Config.params.delim.setWidth 8))]) rfl,
    State.eventsRaised_operation rfl, evStream_succ_next rfl, State.eventsRaised_operation rfl, eventsRaisedBy_rxByte]
  show [] ++ ((matchState.syn.rxByte Config.params (Config.params.delim.setWidth 8)).2.toList ++ []) = _
  rw [h]
  rfl
/-- StreamsHoldWhatIsRaised: a step without `RST` that raises and takes an event, and one that emits and takes bytes. -/
theorem witness_streams : (∃ s t : State, step s = .next t ∧ Instr.rst ∉ s.performed ∧ s.evPending ≠ [] ∧ s.txPending ≠ [] ∧
    s.bytesEmitted ≠ []) ∧ (∃ s t : State, step s = .next t ∧ Instr.rst ∉ s.performed ∧ s.input = [.cycle taking]) :=
  ⟨⟨{ busy with input := [.operation .motorCw] }, _, rfl, by decide, by decide, by decide, by decide +kernel⟩,
    ⟨{ busy with input := [.cycle taking] }, _, rfl, by decide +kernel, rfl⟩⟩
/-- StreamsOfOperations: P3. -/
theorem witness_streamsOfOperations : ∃ u, p3State.input = p3.map .operation ∧ Instr.rst ∉ p3 ∧ execAll p3 p3State = .next u :=
  ⟨_, rfl, by decide, rfl⟩

end Sys2Proof.Tests
end

section
/-!
The absence of any operation (R21, R88): the zero operation vector names no unit's operation.
-/

namespace Sys2Proof.Machine

/-- A vector with bit 9 clear that no unit decodes an operation from is `NOP` (R88). -/
theorem decodeOpv_of_decodeUnits_eq_nil {v : BitVec 10} {o : PortOperands} (hrst : v.getLsbD 9 = false)
    (hunits : decodeUnits v o = []) : decodeOpv v o = [.nop] := by
  simp only [decodeOpv, hrst, hunits, Bool.false_eq_true, if_false]

/-- Every unit's part of the decoder tests a bit of the vector before it answers an operation. -/
@[simp] theorem decodeUnits_zero (o : PortOperands) : decodeUnits 0#10 o = [] := by
  simp [decodeUnits, decodeCrcBits, decodeSynBits, decodeSwpBit, decodeValBit, decodeEncBits]

/-- Settles O38: `exec_nop` in every state, and the zero vector sets neither bit 9 nor a unit's bit. -/
theorem nopChangesNothing : Obligations.NopChangesNothing :=
  ⟨exec_nop, fun o => decodeOpv_of_decodeUnits_eq_nil BitVec.getLsbD_zero (decodeUnits_zero o)⟩

end Sys2Proof.Machine
end

section
/-!
The command frames as the encoder puts them on `TX` (R181 to R186): the six bytes before the content never carry `tx_last`, so
the content alone says which byte does.
-/

namespace Sys2Proof.Machine

/-- Header and CRC go out without `tx_last`, for they are followed by the content (R48, R181). -/
theorem frameBytes_commandFrame (p : Params) {content : List Byte} (hne : content ≠ []) :
    frameBytes (commandFrame p content) =
      [⟨p.header.b0, false⟩, ⟨p.header.b1, false⟩, ⟨p.header.b2, false⟩, ⟨p.header.b3, false⟩,
        ⟨lowByte (crc16r content), false⟩, ⟨highByte (crc16r content), false⟩] ++ frameBytes content := by
  cases content with
  | nil => exact absurd rfl hne
  | cons b rest => rfl

/-- The CRC bytes of the four motor frames, low byte first (R183). -/
theorem crc16r_motorContent : ∀ row : Nat × Byte × Byte,
    row ∈ [(0, 0x31#8, 0x30#8), (1, 0xF0#8, 0xF0#8), (2, 0xB0#8, 0xF1#8), (3, 0x71#8, 0x31#8)] →
      row.1 < 4 ∧ lowByte (crc16r [motorOpcode, selByte row.1]) = row.2.1 ∧
        highByte (crc16r [motorOpcode, selByte row.1]) = row.2.2 := by
  decide +kernel

/-- An operand of any size and sign goes out as its remainder modulo 256 (R92). -/
theorem toNat_truncByte_eq_emod (v : Int) : ((truncByte v).toNat : Int) = v % 256 := by
  have hnonneg : 0 ≤ v % 256 := Int.emod_nonneg v (by decide)
  simpa [truncByte, BitVec.toNat_ofInt] using hnonneg

/-- Settles O32: `frameBytes_commandFrame` on the two-byte motor content, its CRC bytes by `crc16r_motorContent`; beyond 3 the
selector is refused. -/
theorem txMotorEmitsItsFrame : Obligations.TxMotorEmitsItsFrame := by
  refine fun sel s => ⟨fun lo hi hrow => ?_, fun hsel => exec_txMotor_refused s (Nat.not_lt.mpr hsel)⟩
  obtain ⟨hlt, hlo, hhi⟩ := crc16r_motorContent _ hrow
  rw [exec_txMotor_of_lt s hlt, State.emit, motorFrame, frameBytes_commandFrame _ (List.cons_ne_nil _ _), hlo, hhi]
  rfl

/-- Settles O33: the six bytes are the truncated operands, and `frameBytes_commandFrame` spells out the frame of their content
with `stripLength` first. -/
theorem txPixelEmitsItsFrame : Obligations.TxPixelEmitsItsFrame := by
  intro start count red green blue stripLength s
  refine ⟨truncByte start, truncByte count, truncByte red, truncByte green, truncByte blue, truncByte stripLength,
    toNat_truncByte_eq_emod _, toNat_truncByte_eq_emod _, toNat_truncByte_eq_emod _, toNat_truncByte_eq_emod _,
    toNat_truncByte_eq_emod _, toNat_truncByte_eq_emod _, ?_⟩
  rw [exec_txPixel, State.txPixel, State.emit, pixelFrame, frameBytes_commandFrame _ (List.cons_ne_nil _ _)]
  rfl

end Sys2Proof.Machine
end

section
/-!
The right-shifting CRC step by step (R110), and which vectors fire an operation of the CRC unit (R88, R115, R116).
-/

namespace Sys2Proof.Machine

/-! ### The eight steps of the update -/

/-- The last application stands outside, where the recursion of `applyN` has the first one inside. -/
theorem applyN_succ_apply {α : Type} (f : α → α) (n : Nat) (x : α) : applyN f (n + 1) x = f (applyN f n x) :=
  applyN_add f n 1 x

/-- `t_n` of R110, the value after `n` shifts; `t_8` is `crc16rUpdate c b` by definition. -/
def crc16rShifts (c : Word16) (b : Byte) (n : Nat) : Word16 := applyN crc16rBit n (c ^^^ b.zeroExtend 16)

theorem crc16rShifts_zero (c : Word16) (b : Byte) : crc16rShifts c b 0 = c ^^^ b.zeroExtend 16 := rfl

theorem crc16rShifts_succ (c : Word16) (b : Byte) (n : Nat) :
    crc16rShifts c b (n + 1) = if (crc16rShifts c b n).getLsbD 0 = true
      then (crc16rShifts c b n >>> 1) ^^^ 0xA001#16 else crc16rShifts c b n >>> 1 :=
  applyN_succ_apply crc16rBit n _

theorem crc16rUpdate_eq_crc16rShifts (c : Word16) (b : Byte) : crc16rUpdate c b = crc16rShifts c b 8 := rfl

/-- Settles O1: the values `crc16rShifts c b` are the pseudocode's, for `applyN_add` lets a step be added at the end. -/
theorem crc16rUpdateIsEightRightShifts : Obligations.Crc16rUpdateIsEightRightShifts := fun c b =>
  ⟨crc16rShifts c b, crc16rShifts_zero c b, fun n _ => crc16rShifts_succ c b n, crc16rUpdate_eq_crc16rShifts c b⟩

/-! ### The CRC unit's bits of the vector -/

/-- Under a mask, a bit the mask keeps is the vector's own. -/
theorem getLsbD_of_and_eq {w : Nat} {v m x : BitVec w} (h : v &&& m = x) {i : Nat} (hm : m.getLsbD i = true) :
    v.getLsbD i = x.getLsbD i := by
  rw [← h, BitVec.getLsbD_and, hm, Bool.and_true]

end Sys2Proof.Machine

namespace Sys2Proof

open Sys2Proof.Machine

/-- The three operations of the CRC unit (R115 to R117). -/
def Instr.isCrcOperation : Instr → Bool
  | .crcInit | .crcUpd _ | .crcUpdm _ => true
  | _ => false

variable {v : BitVec 10} {o : PortOperands} {i : Instr}

theorem crcInit_mem_decodeCrcBits : Instr.crcInit ∈ decodeCrcBits v o ↔ v.getLsbD 8 = true := by
  unfold decodeCrcBits
  cases v.getLsbD 8 <;> simp

theorem crcUpd_mem_decodeCrcBits {b : Byte} :
    Instr.crcUpd b ∈ decodeCrcBits v o ↔ v.getLsbD 8 = false ∧ v.getLsbD 7 = true ∧ b = o.crcByte := by
  unfold decodeCrcBits
  cases v.getLsbD 8 <;> simp

theorem crcUpdm_mem_decodeCrcBits {b : Byte} :
    Instr.crcUpdm b ∈ decodeCrcBits v o ↔ v.getLsbD 8 = false ∧ v.getLsbD 6 = true ∧ b = o.crcByte := by
  unfold decodeCrcBits
  cases v.getLsbD 8 <;> simp

/-- An operation of a unit fires by its unit's bits, unless bit 9 resets the block (R88). -/
theorem mem_decodeOpv_iff (hrst : i ≠ .rst) (hnop : i ≠ .nop) :
    i ∈ decodeOpv v o ↔ v.getLsbD 9 = false ∧ i ∈ decodeUnits v o := by
  cases h9 : v.getLsbD 9 with
  | true => simp only [decodeOpv, h9, if_true, List.mem_singleton, hrst, Bool.true_eq_false, false_and]
  | false =>
    cases hunits : decodeUnits v o with
    | nil => simp [decodeOpv_of_decodeUnits_eq_nil h9 hunits, hnop]
    | cons j is => simp only [decodeOpv, h9, hunits, Bool.false_eq_true, if_false, true_and]

/-- The other four units answer none of the CRC unit's operations. -/
theorem mem_decodeUnits_of_isCrcOperation (hi : i.isCrcOperation = true) : i ∈ decodeUnits v o ↔ i ∈ decodeCrcBits v o := by
  have hothers : ∀ j ∈ decodeSynBits v o ++ (decodeSwpBit v o ++ (decodeValBit v o ++ decodeEncBits v o)),
      j.isCrcOperation = false := by
    simp only [List.forall_mem_append, decodeSynBits, decodeSwpBit, decodeValBit, decodeEncBits]
    refine ⟨?_, ?_, ?_, ?_⟩ <;> split_ifs <;> simp [Instr.isCrcOperation]
  rw [decodeUnits, List.append_assoc, List.append_assoc, List.append_assoc, List.mem_append]
  exact or_iff_left fun hmem => Bool.false_ne_true ((hothers i hmem).symm.trans hi)

theorem mem_decodeOpv_of_isCrcOperation (hi : i.isCrcOperation = true) :
    i ∈ decodeOpv v o ↔ v.getLsbD 9 = false ∧ i ∈ decodeCrcBits v o := by
  rw [mem_decodeOpv_iff (by rintro rfl; cases hi) (by rintro rfl; cases hi), mem_decodeUnits_of_isCrcOperation hi]

end Sys2Proof

namespace Sys2Proof.Machine

/-- Settles O8: the two writes of `exec_crcInit`; bit 8 set is what `crcInit` asks for and what both updates exclude. -/
theorem crcInitClearsBothRegisters : Obligations.CrcInitClearsBothRegisters := by
  refine ⟨exec_crcInit, fun v o hv => ?_⟩
  have h9 : v.getLsbD 9 = false := getLsbD_of_and_eq hv (by decide)
  have h8 : v.getLsbD 8 = true := getLsbD_of_and_eq hv (by decide)
  refine ⟨(mem_decodeOpv_of_isCrcOperation rfl).mpr ⟨h9, crcInit_mem_decodeCrcBits.mpr h8⟩, fun b => ⟨?_, ?_⟩⟩
  · rw [mem_decodeOpv_of_isCrcOperation rfl, crcUpd_mem_decodeCrcBits, h8]
    simp
  · rw [mem_decodeOpv_of_isCrcOperation rfl, crcUpdm_mem_decodeCrcBits, h8]
    simp

/-- Settles O9: the update's eight steps are `crc16rShifts`; bits 9 and 8 clear leave bit 7 to fire it. -/
theorem crcUpdUpdatesCrcrAlone : Obligations.CrcUpdUpdatesCrcrAlone := by
  refine ⟨fun b s => ⟨crc16rShifts s.crcr b, crc16rShifts_zero _ _, fun n _ => crc16rShifts_succ _ _ n, exec_crcUpd s b⟩,
    fun v o hv => ?_⟩
  have h9 : v.getLsbD 9 = false := getLsbD_of_and_eq hv (by decide)
  have h8 : v.getLsbD 8 = false := getLsbD_of_and_eq hv (by decide)
  have h7 : v.getLsbD 7 = true := getLsbD_of_and_eq hv (by decide)
  exact (mem_decodeOpv_of_isCrcOperation rfl).mpr ⟨h9, crcUpd_mem_decodeCrcBits.mpr ⟨h8, h7, rfl⟩⟩

end Sys2Proof.Machine
end

section
/-!
One received byte (R131, R134, R135) and the sync reset (R136, R138): the registers of the synchronizer after each, and which
vectors fire an operation of the synchronizer (R88).
-/

namespace Sys2Proof

open Sys2Proof.Machine

/-- The two operations of the synchronizer that a vector selects (R131, R138). -/
def Instr.isSynOperation : Instr → Bool
  | .rxClr | .rxByte _ => true
  | _ => false

variable {v : BitVec 10} {o : PortOperands} {i : Instr}

theorem rxClr_mem_decodeSynBits : Instr.rxClr ∈ decodeSynBits v o ↔ v.getLsbD 5 = true := by
  unfold decodeSynBits
  cases v.getLsbD 5 <;> simp

theorem rxByte_mem_decodeSynBits {b : Byte} :
    Instr.rxByte b ∈ decodeSynBits v o ↔ v.getLsbD 5 = false ∧ v.getLsbD 4 = true ∧ b = o.rxByte := by
  unfold decodeSynBits
  cases v.getLsbD 5 <;> simp

/-- The other four units answer none of the synchronizer's operations. -/
theorem mem_decodeUnits_of_isSynOperation (hi : i.isSynOperation = true) : i ∈ decodeUnits v o ↔ i ∈ decodeSynBits v o := by
  have hothers : ∀ j ∈ decodeCrcBits v o ++ (decodeSwpBit v o ++ (decodeValBit v o ++ decodeEncBits v o)),
      j.isSynOperation = false := by
    simp only [List.forall_mem_append, decodeCrcBits, decodeSwpBit, decodeValBit, decodeEncBits]
    refine ⟨?_, ?_, ?_, ?_⟩ <;> split_ifs <;> simp [Instr.isSynOperation]
  have hnot : i ∉ decodeCrcBits v o ++ (decodeSwpBit v o ++ (decodeValBit v o ++ decodeEncBits v o)) :=
    fun hmem => Bool.false_ne_true ((hothers i hmem).symm.trans hi)
  simp only [List.mem_append, not_or] at hnot
  obtain ⟨hcrc, hswp, hval, henc⟩ := hnot
  simp only [decodeUnits, List.mem_append, hcrc, hswp, hval, henc, false_or, or_false]

theorem mem_decodeOpv_of_isSynOperation (hi : i.isSynOperation = true) :
    i ∈ decodeOpv v o ↔ v.getLsbD 9 = false ∧ i ∈ decodeSynBits v o := by
  rw [mem_decodeOpv_iff (by rintro rfl; cases hi) (by rintro rfl; cases hi), mem_decodeUnits_of_isSynOperation hi]

end Sys2Proof

namespace Sys2Proof.Machine

/-- Before it saturates the count of bytes goes on by one. -/
theorem Syn.shiftIn_cnt_of_lt (b : Byte) {y : Syn} (h : y.cnt.toNat + 1 < 24) :
    (y.shiftIn b).cnt = BitVec.ofNat 5 (y.cnt.toNat + 1) := by
  rw [Syn.shiftIn, min_eq_left h.le]

/-- A match before the 24th byte is a short one, and its event carries the count with the byte (R134). -/
theorem Syn.matchEvent_shiftIn_of_lt (b : Byte) {y : Syn} (h : y.cnt.toNat + 1 < 24) :
    (y.shiftIn b).matchEvent = .shortMatch (BitVec.ofNat 5 (y.cnt.toNat + 1)) := by
  have hshort : (y.shiftIn b).cnt.toNat ≠ 24 := by
    rw [Syn.shiftIn_cnt]
    omega
  rw [Syn.matchEvent_short hshort, Syn.shiftIn_cnt_of_lt b h]

/-- Settles O13: without a match the byte is shifted in and no more; `Memory.wf_write` and the two read rules say what the
write does to `BUF`. -/
theorem rxByteWithoutMatch : Obligations.RxByteWithoutMatch := by
  intro b s hwf hne
  refine ⟨s.syn.shiftIn b, ?_, Memory.wf_write hwf _ b, Syn.shiftIn_acc b s.syn, Syn.shiftIn_idx b s.syn,
    Syn.shiftIn_cnt b s.syn, Memory.read_write_same hwf _ b, fun a ha => Memory.read_write_other hwf ha b⟩
  rw [exec_rxByte, State.rxByte_noMatch hne]
  rfl

/-- Settles O14: a match resets the synchronizer and raises its event, which `matchEvent_shiftIn_of_lt` says is a short one. -/
theorem rxByteShortMatch : Obligations.RxByteShortMatch := by
  intro b s hmatch hcnt
  rw [exec_rxByte, State.rxByte_match hmatch, Syn.matchEvent_shiftIn_of_lt b hcnt]
  rfl

/-- Settles O17: `exec_rxClr` writes the empty synchronizer and nothing else; bit 5 set is what `rxClr` asks for and what
`rxByte` excludes. -/
theorem rxClrEmptiesTheSynchronizer : Obligations.RxClrEmptiesTheSynchronizer := by
  refine ⟨fun s => ⟨Syn.empty, exec_rxClr s, Syn.empty_acc, Syn.empty_idx, Syn.empty_cnt, Memory.read_nil⟩, fun v o hv => ?_⟩
  have h9 : v.getLsbD 9 = false := getLsbD_of_and_eq hv (by decide)
  have h5 : v.getLsbD 5 = true := getLsbD_of_and_eq hv (by decide)
  refine ⟨(mem_decodeOpv_of_isSynOperation rfl).mpr ⟨h9, rxClr_mem_decodeSynBits.mpr h5⟩, fun b => ?_⟩
  rw [mem_decodeOpv_of_isSynOperation rfl, rxByte_mem_decodeSynBits, h5]
  simp

end Sys2Proof.Machine
end

section
/-!
The byte-pair swapper pair by pair (R150, R151): what each element of `swap_pairs` is, the transactions of `SWP s` one after the
other, and the bit of the vector that selects one.
-/

namespace Sys2Proof.Machine

/-! ### The swapped bytes -/

/-- Two bytes more are one pair more: the count of pairs follows the recursion of `swapPairs` and `swapTransactions`. -/
theorem length_cons_cons_div_two (a b : Byte) (rest : List Byte) :
    (a :: b :: rest).length / 2 = rest.length / 2 + 1 := Nat.add_div_right _ Nat.two_pos

/-- Every whole pair leaves two bytes; an odd last byte, outside the domain of R150, leaves none. -/
theorem length_swapPairs : ∀ s : List Byte, (swapPairs s).length = 2 * (s.length / 2)
  | [] | [_] => by simp [swapPairs]
  | a :: b :: rest => by
    rw [swapPairs_cons, length_cons_cons_div_two, List.length_cons, List.length_cons, length_swapPairs rest, Nat.mul_succ]

theorem getD_swapPairs : ∀ (s : List Byte) (k : Nat), k < s.length / 2 →
    (swapPairs s).getD (2 * k) 0#8 = s.getD (2 * k + 1) 0#8 ∧ (swapPairs s).getD (2 * k + 1) 0#8 = s.getD (2 * k) 0#8
  | [], _, hk | [_], _, hk => absurd hk (by simp)
  | a :: b :: rest, 0, _ => ⟨rfl, rfl⟩
  | a :: b :: rest, k + 1, hk => by
    have hrest : k < rest.length / 2 := by
      simpa only [length_cons_cons_div_two, Nat.add_lt_add_iff_right] using hk
    simpa [Nat.mul_succ] using getD_swapPairs rest k hrest

theorem swapDomain_iff {s : List Byte} : swapDomain s = true ↔ s.length % 2 = 0 ∧ s.length ≠ 0 := by simp [swapDomain]

/-- Settles O25: `length_swapPairs` at an even length, and `getD_swapPairs`. -/
theorem swapPairsExchangesEachPair : Obligations.SwapPairsExchangesEachPair := by
  intro s hs
  have heven : s.length % 2 = 0 := (swapDomain_iff.mp hs).1
  exact ⟨by rw [length_swapPairs, Nat.mul_div_cancel' (Nat.dvd_of_mod_eq_zero heven)], getD_swapPairs s⟩

/-! ### The transactions -/

@[simp] theorem swapTransactions_cons (a b : Byte) (rest : List Byte) :
    swapTransactions (a :: b :: rest) = .swp [a, b] :: swapTransactions rest := rfl

theorem length_swapTransactions : ∀ bs : List Byte, (swapTransactions bs).length = bs.length / 2
  | [] | [_] => by simp [swapTransactions]
  | a :: b :: rest => by
    rw [swapTransactions_cons, length_cons_cons_div_two, List.length_cons, length_swapTransactions rest]

theorem getElem?_swapTransactions : ∀ (bs : List Byte) (k : Nat), k < bs.length / 2 →
    (swapTransactions bs)[k]? = some (.swp [bs.getD (2 * k) 0#8, bs.getD (2 * k + 1) 0#8])
  | [], _, hk | [_], _, hk => absurd hk (by simp)
  | a :: b :: rest, 0, _ => rfl
  | a :: b :: rest, k + 1, hk => by
    have hrest : k < rest.length / 2 := by
      simpa only [length_cons_cons_div_two, Nat.add_lt_add_iff_right] using hk
    simpa [Nat.mul_succ] using getElem?_swapTransactions rest k hrest

@[simp] theorem State.giveSwapped_nil (s : State) : s.giveSwapped [] = s := by simp [State.giveSwapped]

@[simp] theorem State.giveSwapped_giveSwapped (s : State) (bs cs : List Byte) :
    (s.giveSwapped bs).giveSwapped cs = s.giveSwapped (bs ++ cs) := by simp [State.giveSwapped]

/-- One transaction gives its pair the other way round (R48, R151). -/
theorem exec_swp_pair (a b : Byte) (s : State) : exec (.swp [a, b]) s = .next (s.giveSwapped [b, a]) :=
  exec_swp_of_domain s (by simp [swapDomain])

/-- Each transaction puts its pair behind those given out before it. -/
theorem execAll_swapTransactions : ∀ (bs : List Byte) (s : State),
    execAll (swapTransactions bs) s = .next (s.giveSwapped (swapPairs bs))
  | [], s | [_], s => congrArg Host.Outcome.next s.giveSwapped_nil.symm
  | a :: b :: rest, s => by
    rw [swapTransactions_cons, execAll_cons_next s (exec_swp_pair a b s), execAll_swapTransactions rest,
      State.giveSwapped_giveSwapped]
    rfl

/-! ### The swapper's bit of the vector -/

theorem swp_mem_decodeSwpBit {v : BitVec 10} {o : PortOperands} {bs : List Byte} :
    Instr.swp bs ∈ decodeSwpBit v o ↔ v.getLsbD 3 = true ∧ bs = [o.swpA, o.swpB] := by
  unfold decodeSwpBit
  cases v.getLsbD 3 <;> simp

/-- Settles O28: the transactions and the whole operation both give `swap_pairs` out (`execAll_swapTransactions`,
`exec_swp_of_domain`); bit 9 clear and bit 3 set fire a pair's transaction. -/
theorem swpIsItsPairTransactions : Obligations.SwpIsItsPairTransactions := by
  refine ⟨fun bs s hbs => ?_, fun a b s => exec_swp_pair a b s, fun v o hv => ?_⟩
  · have hexec : exec (.swp bs) s = .next (s.giveSwapped (swapPairs bs)) := exec_swp_of_domain s hbs
    exact ⟨length_swapTransactions bs, getElem?_swapTransactions bs, (execAll_swapTransactions bs s).trans hexec.symm, hexec⟩
  · have h9 : v.getLsbD 9 = false := getLsbD_of_and_eq hv (by decide)
    have h3 : v.getLsbD 3 = true := getLsbD_of_and_eq hv (by decide)
    have hswp : Instr.swp [o.swpA, o.swpB] ∈ decodeSwpBit v o := swp_mem_decodeSwpBit.mpr ⟨h3, rfl⟩
    refine (mem_decodeOpv_iff Instr.noConfusion Instr.noConfusion).mpr ⟨h9, ?_⟩
    simp only [decodeUnits, List.mem_append, hswp, or_true, true_or]

end Sys2Proof.Machine
end

section
/-!
The receive path at a match with a full window (R161 to R167): the window that the last byte completes, and the verdict and the
words of the swapped frame stated on the wire frame (R171).
-/

namespace Sys2Proof.Machine

/-! ### The window the last byte completes -/

section Window

variable {y : Syn} (hwf : y.buf.wf = true) (b : Byte)
include hwf

/-- The window starts one byte later than before, at the oldest byte left (R131, R133). -/
theorem Syn.window_shiftIn_getD {i : Nat} (hi : i < 23) :
    (y.shiftIn b).window.getD i 0#8 = y.buf.read (y.idx.toNat + 1 + i) := by
  have hne : ((y.idx.toNat + 1) % 24 + i) % 24 ≠ y.idx.toNat % 24 := by omega
  rw [Syn.window_getD _ (by omega), Syn.shiftIn_buf, Syn.shiftIn_idx, Memory.read_write_other hwf hne,
    ← Memory.read_mod, Nat.mod_add_mod, Memory.read_mod]

/-- The window ends with the byte just received. -/
theorem Syn.window_shiftIn_getD_last : (y.shiftIn b).window.getD 23 0#8 = b := by
  have hidx : ((y.idx.toNat + 1) % 24 + 23) % 24 = y.idx.toNat % 24 := by omega
  rw [Syn.window_getD _ (by decide), Syn.shiftIn_buf, Syn.shiftIn_idx, Memory.read_write hwf, if_pos hidx]

end Window

/-! ### The swapped frame on the wire frame -/

/-- Pair `k` of a wire frame as the swap leaves it, its second byte first. -/
def wirePair (w : List Byte) (k : Nat) : List Byte := [w.getD (2 * k + 1) 0#8, w.getD (2 * k) 0#8]

theorem wireContent_eq_flatMap_wirePair (w : List Byte) : wireContent w = (List.range 9).flatMap (wirePair w) := rfl

/-- The first bytes of the swapped frame are its pairs, each the other way round. -/
theorem take_swapPairs : ∀ (n : Nat) (w : List Byte), n ≤ w.length / 2 →
    (swapPairs w).take (2 * n) = (List.range n).flatMap (wirePair w)
  | 0, _, _ => rfl
  | n + 1, [], hn | n + 1, [_], hn => absurd hn (by simp)
  | n + 1, a :: b :: rest, hn => by
    have hrest : n ≤ rest.length / 2 := by
      simpa only [length_cons_cons_div_two, Nat.add_le_add_iff_right] using hn
    rw [swapPairs_cons, Nat.mul_succ, List.take_succ_cons, List.take_succ_cons, take_swapPairs n rest hrest,
      List.range_succ_eq_map, List.flatMap_cons, List.flatMap_map]
    rfl

/-- A little-endian word of the swapped frame is the big-endian word of the wire frame (R163). -/
theorem frameWord_swapPairs {w : List Byte} {k : Nat} (hk : k < w.length / 2) : frameWord (swapPairs w) k = wireWord w k := by
  obtain ⟨hlo, hhi⟩ := getD_swapPairs w k hk
  rw [frameWord, hlo, hhi, le16, wireWord]

section WireFrame

variable {w : List Byte} (hw : w.length = 24)
include hw

theorem validate_swapPairs_iff : validate (swapPairs w) = true ↔ crc16r (wireContent w) = wireWord w 9 := by
  have hcontent : (swapPairs w).take contentLen = wireContent w := take_swapPairs 9 w (by rw [hw]; decide)
  have hchecksum : le16 ((swapPairs w).getD 18 0#8) ((swapPairs w).getD 19 0#8) = wireWord w 9 :=
    frameWord_swapPairs (k := 9) (by rw [hw]; decide)
  rw [validate, hcontent, hchecksum, beq_iff_eq]

theorem decodeTelemetry_swapPairs : decodeTelemetry (swapPairs w) = wireFrame w := by
  have hword : ∀ k, k < 12 → frameWord (swapPairs w) k = wireWord w k := fun k hk =>
    frameWord_swapPairs (by rw [hw]; exact hk)
  simp [decodeTelemetry, wireFrame, hword]

/-- The event of a candidate frame, its test and its words on the frame as received (R165 to R167). -/
theorem receiveFrame_of_length : receiveFrame w =
    if crc16r (wireContent w) = wireWord w 9 then .frameOk (wireFrame w) else .invalidFrame w := by
  simp only [receiveFrame, validate_swapPairs_iff hw, decodeTelemetry_swapPairs hw]

end WireFrame

/-- From the 24th byte on a match is one with a full window (R131). -/
theorem Syn.matchEvent_shiftIn_of_le (b : Byte) {y : Syn} (h : 24 ≤ y.cnt.toNat + 1) :
    (y.shiftIn b).matchEvent = receiveFrame (y.shiftIn b).window :=
  Syn.matchEvent_full ((Syn.shiftIn_cnt b y).trans (min_eq_right h))

/-- Settles O15: the frame is the window after the byte is shifted in, and `receiveFrame_of_length` says which event it raises. -/
theorem rxByteFullWindow : Obligations.RxByteFullWindow := by
  intro b s hwf hmatch hcnt
  have hlen : (s.syn.shiftIn b).window.length = 24 := Syn.length_window _
  refine ⟨(s.syn.shiftIn b).window, hlen, fun i hi => Syn.window_shiftIn_getD hwf b hi, Syn.window_shiftIn_getD_last hwf b, ?_⟩
  rw [exec_rxByte, State.rxByte_match hmatch, Syn.matchEvent_shiftIn_of_le b hcnt, receiveFrame_of_length hlen]
  rfl

end Sys2Proof.Machine
end

section
/-!
Reset (R230 to R232): an output port is invalid exactly when nothing waits for it (R48), and a vector with bit 9 set is `RST`
and nothing else (R88).
-/

namespace Sys2Proof.Machine

/-! ### The valid ports -/

variable {s : State}

theorem State.evValid_eq_false_iff : s.outputPorts.evValid = false ↔ s.evPending = [] := by
  simp [State.outputPorts]

theorem State.txValid_eq_false_iff : s.outputPorts.txValid = false ↔ s.txPending = [] := by
  simp [State.outputPorts]

theorem State.swpOvalid_eq_false_iff : s.outputPorts.swpOvalid = false ↔ s.swpOut = [] := by
  simp [State.outputPorts]

theorem State.valOvalid_eq_false_iff : s.outputPorts.valOvalid = false ↔ s.valOut = none := by
  simp [State.outputPorts]

/-! ### `RST` -/

/-- With bit 9 set no unit's bit is looked at (R88). -/
theorem decodeOpv_of_bit9 {v : BitVec 10} (hrst : v.getLsbD 9 = true) (o : PortOperands) : decodeOpv v o = [.rst] := if_pos hrst

/-- Settles O37: `exec_rst` writes the registers and clears the outputs, so no output is valid; `decodeOpv_of_bit9` for the
vectors. -/
theorem rstGivesTheResetState : Obligations.RstGivesTheResetState := by
  refine ⟨fun s => ⟨_, exec_rst s, ?_⟩, fun _ o hrst => decodeOpv_of_bit9 hrst o⟩
  exact ⟨rfl, rfl, Syn.empty_acc, Syn.empty_idx, Syn.empty_cnt, Memory.read_nil,
    State.clearOutputs_evPending _, State.clearOutputs_txPending _, State.clearOutputs_swpOut _, State.clearOutputs_valOut _,
    State.evValid_eq_false_iff.mpr (State.clearOutputs_evPending _),
    State.txValid_eq_false_iff.mpr (State.clearOutputs_txPending _),
    State.swpOvalid_eq_false_iff.mpr (State.clearOutputs_swpOut _),
    State.valOvalid_eq_false_iff.mpr (State.clearOutputs_valOut _)⟩

end Sys2Proof.Machine
end

section
/-!
The decoder after the encoder, row by row of the opcode table: the vector of each operation fires that operation alone, and a
command or telemetry frame's bytes are read back as the row they were made for.
-/

namespace Sys2Proof

open Sys2Proof.Machine

/-! ### Operation words -/

section Vectors

variable (o : PortOperands)

theorem decodeOpv_rst : decodeOpv 0x200#10 o = [.rst] := rfl
theorem decodeOpv_nop : decodeOpv 0x000#10 o = [.nop] := rfl
theorem decodeOpv_crcInit : decodeOpv 0x100#10 o = [.crcInit] := rfl
theorem decodeOpv_crcUpd : decodeOpv 0x080#10 o = [.crcUpd o.crcByte] := rfl
theorem decodeOpv_crcUpdm : decodeOpv 0x040#10 o = [.crcUpdm o.crcByte] := rfl
theorem decodeOpv_rxClr : decodeOpv 0x020#10 o = [.rxClr] := rfl
theorem decodeOpv_rxByte : decodeOpv 0x010#10 o = [.rxByte o.rxByte] := rfl
theorem decodeOpv_swp : decodeOpv 0x008#10 o = [.swp [o.swpA, o.swpB]] := rfl
theorem decodeOpv_val : decodeOpv 0x004#10 o = [.val (valFrameBytes o.valFrame)] := rfl
theorem decodeOpv_txMotor : decodeOpv 0x002#10 o = [.txMotor o.txmSel.toNat] := rfl
theorem decodeOpv_txPixel : decodeOpv 0x001#10 o = [.txPixel o.txpStart.toNat o.txpCount.toNat o.txpRed.toNat
    o.txpGreen.toNat o.txpBlue.toNat o.txpStriplen.toNat] := rfl

end Vectors

/-- What decoding gives back from words, one after the other. -/
def decodeWords (p : Params) (ws : List (Nat × Nat)) : List (Except DecodeError (List Instr)) :=
  ws.map fun w => decodeWord p w.1 w.2

theorem decodeWords_portWord (p : Params) {opv : BitVec 10} {o : PortOperands} {i : Instr} (h : decodeOpv opv o = [i]) :
    decodeWords p [portWord opv o] = [.ok [i]] := by
  rw [decodeWords, List.map_singleton, decodeWord_portWord, h]

/-- The words of `SWP s` are its pairs, one transaction each (R151). -/
theorem decodeWords_encodeSwap (p : Params) : ∀ s : List Byte,
    decodeWords p (encodeSwap s) = (swapTransactions s).map fun j => .ok [j]
  | [] | [_] => rfl
  | a :: b :: rest => by
    have hrest : (encodeSwap rest).map (fun w => decodeWord p w.1 w.2) = _ := decodeWords_encodeSwap p rest
    rw [decodeWords, encodeSwap, List.map_cons, decodeWord_portWord, decodeOpv_swp, hrest]
    rfl

theorem decodeOpv_val_packBytes {n : List Byte} (hn : n.length = frameLen) :
    decodeOpv 0x004#10 { PortOperands.zero with valFrame := packBytes n } = [.val n] := by
  rw [decodeOpv_val, valFrameBytes_packBytes hn]

theorem decodeOpv_txMotor_ofNat {sel : Nat} (hsel : sel < 4) :
    decodeOpv 0x002#10 { PortOperands.zero with txmSel := BitVec.ofNat 2 sel } = [.txMotor sel] := by
  rw [decodeOpv_txMotor, BitVec.toNat_ofNat, Nat.mod_eq_of_lt hsel]

theorem toNat_truncByte_of_fitsByte {v : Int} (hv : fitsByte v = true) : ((truncByte v).toNat : Int) = v := by
  obtain ⟨hnonneg, hlt⟩ : 0 ≤ v ∧ v < 256 := by simpa [fitsByte] using hv
  exact toNat_truncByte hnonneg hlt

/-- The six operands that fit their ports are read back as they were (R92). -/
theorem decodeOpv_txPixel_truncByte {p : Params} {start count red green blue stripLength : Int}
    (hwf : (Instr.txPixel start count red green blue stripLength).wf p = true) :
    decodeOpv 0x001#10 { PortOperands.zero with
      txpStart := truncByte start, txpCount := truncByte count, txpRed := truncByte red, txpGreen := truncByte green,
      txpBlue := truncByte blue, txpStriplen := truncByte stripLength } =
      [.txPixel start count red green blue stripLength] := by
  simp only [Instr.wf, Bool.and_eq_true] at hwf
  obtain ⟨⟨⟨⟨⟨hstart, hcount⟩, hred⟩, hgreen⟩, hblue⟩, hstrip⟩ := hwf
  simp only [decodeOpv_txPixel, toNat_truncByte_of_fitsByte, hstart, hcount, hred, hgreen, hblue, hstrip]

/-! ### Frames -/

/-- A frame format's word of the right length is decoded from its bytes. -/
theorem decodeWord_motor (p : Params) {bs : List Byte} (h : bs.length = motorFrameLen) :
    decodeWord p 64 (natOfBytes bs) = single (decodeMotorFrame p bs) := by
  have hlt : natOfBytes bs < 256 ^ motorFrameLen := h ▸ natOfBytes_lt bs
  simp [decodeWord, hlt, bytesOfNat_natOfBytes_of_length h]

theorem decodeWord_pixel (p : Params) {bs : List Byte} (h : bs.length = pixelFrameLen) :
    decodeWord p 104 (natOfBytes bs) = single (decodePixelFrame p bs) := by
  have hlt : natOfBytes bs < 256 ^ pixelFrameLen := h ▸ natOfBytes_lt bs
  simp [decodeWord, hlt, bytesOfNat_natOfBytes_of_length h]

theorem decodeWord_telemetry (p : Params) {bs : List Byte} (h : bs.length = frameLen) :
    decodeWord p 192 (natOfBytes bs) = single (decodeTelemetryFrame p bs) := by
  have hlt : natOfBytes bs < 256 ^ frameLen := h ▸ natOfBytes_lt bs
  simp [decodeWord, hlt, bytesOfNat_natOfBytes_of_length h]

/-- Header, opcode and checksum are those the decoder asks for, so the parameter alone says the row (R85, R87). -/
theorem decodeMotorFrame_motorFrame (p : Params) (sel : Nat) :
    decodeMotorFrame p (motorFrame p sel) = motorRow (selByte sel).toNat := by
  simp [motorFrame, commandFrame, Header.bytes, decodeMotorFrame]

theorem decodePixelFrame_pixelFrame (p : Params) (start count red green blue stripLength : Byte) :
    decodePixelFrame p (pixelFrame p start count red green blue stripLength) =
      .ok (.framePixel stripLength start count red green blue) := by
  simp [pixelFrame, commandFrame, Header.bytes, decodePixelFrame]

theorem decodeTelemetryFrame_of_endsInDelim {p : Params} {w : List Byte} (hlen : w.length = frameLen)
    (hdelim : endsInDelim p w = true) : decodeTelemetryFrame p w = .ok (.frameTelemetry w) := by
  simp [decodeTelemetryFrame, hlen, hdelim]

theorem decodeWords_motorFrame (p : Params) {sel : Nat} {i : Instr} (hrow : motorRow (selByte sel).toNat = .ok i) :
    decodeWords p [(64, natOfBytes (motorFrame p sel))] = [.ok [i]] := by
  rw [decodeWords, List.map_singleton, decodeWord_motor p (length_motorFrame p sel), decodeMotorFrame_motorFrame, hrow]
  rfl

theorem decodeWords_pixelFrame (p : Params) (stripLength start count red green blue : Byte) :
    decodeWords p [(104, natOfBytes (pixelFrame p start count red green blue stripLength))] =
      [.ok [.framePixel stripLength start count red green blue]] := by
  rw [decodeWords, List.map_singleton, decodeWord_pixel p (length_pixelFrame ..), decodePixelFrame_pixelFrame]
  rfl

theorem decodeWords_telemetry {p : Params} {w : List Byte} (hwf : (Instr.frameTelemetry w).wf p = true) :
    decodeWords p [(192, natOfBytes w)] = [.ok [.frameTelemetry w]] := by
  obtain ⟨hlen, hdelim⟩ : w.length = frameLen ∧ endsInDelim p w = true := by simpa [Instr.wf] using hwf
  rw [decodeWords, List.map_singleton, decodeWord_telemetry p hlen, decodeTelemetryFrame_of_endsInDelim hlen hdelim]
  rfl

/-- Settles O45, row by row: an operation word is its vector and operands (`decodeWord_portWord`) and that vector fires one
operation; `SWP` by its pairs; a frame's word by its bytes. -/
theorem decodingAnEncodingGivesItBack : Obligations.DecodingAnEncodingGivesItBack := by
  intro p i hwf
  change decodeWords p (encode p i) = _
  cases i with
  | rst => exact decodeWords_portWord p (decodeOpv_rst _)
  | nop => exact decodeWords_portWord p (decodeOpv_nop _)
  | crcInit => exact decodeWords_portWord p (decodeOpv_crcInit _)
  | crcUpd b => exact decodeWords_portWord p (decodeOpv_crcUpd _)
  | crcUpdm b => exact decodeWords_portWord p (decodeOpv_crcUpdm _)
  | rxClr => exact decodeWords_portWord p (decodeOpv_rxClr _)
  | rxByte b => exact decodeWords_portWord p (decodeOpv_rxByte _)
  | swp s => exact decodeWords_encodeSwap p s
  | val n => exact decodeWords_portWord p (decodeOpv_val_packBytes (by simpa [Instr.wf] using hwf))
  | txMotor sel => exact decodeWords_portWord p (decodeOpv_txMotor_ofNat (by simpa [Instr.wf] using hwf))
  | txPixel => exact decodeWords_portWord p (decodeOpv_txPixel_truncByte hwf)
  | motorBrake => exact decodeWords_motorFrame p rfl
  | motorStop => exact decodeWords_motorFrame p rfl
  | motorCcw => exact decodeWords_motorFrame p rfl
  | motorCw => exact decodeWords_motorFrame p rfl
  | framePixel => exact decodeWords_pixelFrame p ..
  | frameTelemetry w => exact decodeWords_telemetry hwf

end Sys2Proof
end

section
/-!
What an operation does, said once for all of them (R14, R206): whether it is accepted depends on its operands alone, and an
accepted one changes each register and each output by a rule that reads that part of the state alone, or `SYN` for an event.
-/

namespace Sys2Proof.Machine

/-! ### Bytes received -/

/-- The registers of the synchronizer and the events raised, over the bytes `bs` (R139). -/
def Syn.rxBytes (p : Params) : List Byte → Syn → Syn × List Event
  | [], y => (y, [])
  | b :: bs, y =>
    let r := Syn.rxBytes p bs (y.rxByte p b).1
    (r.1, (y.rxByte p b).2.toList ++ r.2)

theorem State.rxByte_eq (p : Params) (b : Byte) (s : State) : s.rxByte p b =
    { s with syn := (s.syn.rxByte p b).1, evPending := s.evPending ++ (s.syn.rxByte p b).2.toList } := by
  obtain ⟨hm, h⟩ | ⟨hm, h⟩ := s.rxByte_cases p b
  · simp [h, Syn.rxByte_noMatch hm, State.setSyn]
  · simp [h, Syn.rxByte_match hm, State.setSyn, State.raise]

theorem State.rxChunk_eq (p : Params) : ∀ (bs : List Byte) (s : State), s.rxChunk p bs =
    { s with syn := (s.syn.rxBytes p bs).1, evPending := s.evPending ++ (s.syn.rxBytes p bs).2 }
  | [], s => by simp [Syn.rxBytes]
  | b :: bs, s => by simp [Syn.rxBytes, State.rxChunk_eq p bs, State.rxByte_eq p b s]

end Sys2Proof.Machine

namespace Sys2Proof

open Sys2Proof.Machine

/-! ### The parts of an operation -/

/-- `CRCR` after the operation (R31). -/
@[simp] def Instr.onCrcr : Instr → Word16 → Word16
  | .rst, _ | .crcInit, _ => 0#16
  | .crcUpd b, c => crc16rUpdate c b
  | _, c => c

/-- `CRCM` after the operation (R32). -/
@[simp] def Instr.onCrcm : Instr → Word16 → Word16
  | .rst, _ | .crcInit, _ => 0#16
  | .crcUpdm b, c => crc16mUpdate c b
  | _, c => c

/-- The registers of the synchronizer after the operation. -/
@[simp] def Instr.onSyn : Instr → Syn → Syn
  | .rst, _ | .rxClr, _ => Syn.empty
  | .rxByte b, y => (y.rxByte Config.params b).1
  | .frameTelemetry w, y => (y.rxBytes Config.params w).1
  | _, y => y

/-- The events the operation raises (R200). -/
@[simp] def Instr.raises : Instr → Syn → List Event
  | .rxByte b, y => (y.rxByte Config.params b).2.toList
  | .frameTelemetry w, y => (y.rxBytes Config.params w).2
  | _, _ => []

/-- The command frame the operation emits (R180). -/
@[simp] def Instr.emits : Instr → List TxByte
  | .txMotor sel => frameBytes (motorFrame Config.params sel)
  | .txPixel start count red green blue stripLength => frameBytes (pixelFrame Config.params (truncByte start)
      (truncByte count) (truncByte red) (truncByte green) (truncByte blue) (truncByte stripLength))
  | .motorBrake => frameBytes (motorFrame Config.params 0)
  | .motorStop => frameBytes (motorFrame Config.params 1)
  | .motorCcw => frameBytes (motorFrame Config.params 2)
  | .motorCw => frameBytes (motorFrame Config.params 3)
  | .framePixel stripLength start count red green blue =>
    frameBytes (pixelFrame Config.params start count red green blue stripLength)
  | _ => []

/-- The bytes the swapper gives out (R151). -/
@[simp] def Instr.swapped : Instr → List Byte
  | .swp bs => swapPairs bs
  | _ => []

/-- The verdict after the operation (R164, R232). -/
@[simp] def Instr.onVerdict : Instr → Option Verdict → Option Verdict
  | .rst, _ => none
  | .val n, _ => some (verdict n)
  | _, v => v

/-- What the operation leaves of an output that waits: `RST` drops it (R232), every other operation only adds to it. -/
@[simp] def Instr.leaves {α : Type} : Instr → List α → List α
  | .rst, _ => []
  | _, l => l

end Sys2Proof

namespace Sys2Proof.Machine

/-- The state after an accepted operation, part by part. -/
def State.after (s : State) (i : Instr) : State :=
  { crcr := i.onCrcr s.crcr
    crcm := i.onCrcm s.crcm
    syn := i.onSyn s.syn
    evPending := i.leaves s.evPending ++ i.raises s.syn
    txPending := i.leaves s.txPending ++ i.emits
    swpOut := i.leaves s.swpOut ++ i.swapped
    valOut := i.onVerdict s.valOut
    input := s.input }

theorem leaves_of_ne_rst {i : Instr} (hi : i ≠ .rst) {α : Type} (l : List α) : i.leaves l = l := by
  cases i <;> simp at hi ⊢

/-! ### Accepted operations complete, the others are refused -/

/-- The parts an operation does not change are as they were: what is left of `State.after` is the meaning's own update. -/
theorem exec_of_accepted {i : Instr} (hi : i.accepted = true) (s : State) : exec i s = .next (s.after i) := by
  cases i with
  | swp bs => rw [exec_swp_of_domain s hi]; simp [State.after, State.giveSwapped]
  | val n => rw [exec_val_of_length s (by simpa [Instr.accepted] using hi)]; simp [State.after, State.giveVerdict]
  | txMotor sel => rw [exec_txMotor_of_lt s (by simpa [Instr.accepted] using hi)]; simp [State.after, State.emit]
  | rxByte b => rw [exec_rxByte, State.rxByte_eq]; simp [State.after]
  | frameTelemetry w =>
    rw [exec_frameTelemetry_of_length s (by simpa [Instr.accepted] using hi), State.rxChunk_eq]
    simp [State.after]
  | _ => simp [State.after, State.setCrcr, State.setCrcm, State.setSyn, State.clearOutputs, State.txPixel, State.emit]

/-- The four operand checks, each refused by its name (R206; log entry 11). -/
theorem exec_of_not_accepted {i : Instr} (hi : i.accepted = false) (s : State) :
    ∃ r, exec i s = .refused r ∧ r ∈ [Refusal.swapLength, .validateLength, .motorSelector, .frameLength] := by
  cases i with
  | swp bs => exact ⟨_, exec_swp_refused s hi, by simp⟩
  | val n => exact ⟨_, exec_val_refused s (by simpa [Instr.accepted] using hi), by simp⟩
  | txMotor sel => exact ⟨_, exec_txMotor_refused s (by simpa [Instr.accepted] using hi), by simp⟩
  | frameTelemetry w => exact ⟨_, exec_frameTelemetry_refused s (by simpa [Instr.accepted] using hi), by simp⟩
  | _ => cases hi

theorem exec_eq_next_iff {i : Instr} {s t : State} : exec i s = .next t ↔ i.accepted = true ∧ t = s.after i := by
  cases hi : i.accepted with
  | true => simp [exec_of_accepted hi, eq_comm]
  | false =>
    obtain ⟨r, hr, -⟩ := exec_of_not_accepted hi s
    simp [hr]

theorem execAll_of_accepted : ∀ {is : List Instr}, (∀ i ∈ is, i.accepted = true) → ∀ s : State,
    execAll is s = .next (is.foldl State.after s)
  | [], _, _ => rfl
  | i :: is, his, s => by
    obtain ⟨hi, hrest⟩ := List.forall_mem_cons.mp his
    rw [execAll_cons_next s (exec_of_accepted hi s), execAll_of_accepted hrest]
    rfl

/-- Settles O39: `exec_of_accepted` and `exec_of_not_accepted`. -/
theorem operationsCompleteOrAreRefused : Obligations.OperationsCompleteOrAreRefused := fun _ s =>
  ⟨fun hi => ⟨_, exec_of_accepted hi s⟩, fun hi => exec_of_not_accepted hi s⟩

/-! ### The writers of each part -/

section Writers

variable (i : Instr)

theorem onCrcr_eq_or (c : Word16) : i.onCrcr c = c ∨ i = .rst ∨ i = .crcInit ∨ ∃ b, i = .crcUpd b := by
  cases i <;> simp

theorem onCrcm_eq_or (c : Word16) : i.onCrcm c = c ∨ i = .rst ∨ i = .crcInit ∨ ∃ b, i = .crcUpdm b := by
  cases i <;> simp

theorem onSyn_eq_or (y : Syn) :
    i.onSyn y = y ∨ i = .rst ∨ i = .rxClr ∨ (∃ b, i = .rxByte b) ∨ ∃ w, i = .frameTelemetry w := by
  cases i <;> simp

theorem waitingEvents_eq_or (l : List Event) (y : Syn) :
    i.leaves l ++ i.raises y = l ∨ i = .rst ∨ (∃ b, i = .rxByte b) ∨ ∃ w, i = .frameTelemetry w := by
  cases i <;> simp

theorem waitingBytes_eq_or (l : List TxByte) :
    i.leaves l ++ i.emits = l ∨ i = .rst ∨ (∃ sel, i = .txMotor sel) ∨ (∃ a b c d e f, i = .txPixel a b c d e f) ∨
      i ∈ [Instr.motorBrake, .motorStop, .motorCcw, .motorCw] ∨ ∃ a b c d e f, i = .framePixel a b c d e f := by
  cases i <;> simp

theorem swapOutput_eq_or (l : List Byte) : i.leaves l ++ i.swapped = l ∨ i = .rst ∨ ∃ bs, i = .swp bs := by
  cases i <;> simp

theorem onVerdict_eq_or (v : Option Verdict) : i.onVerdict v = v ∨ i = .rst ∨ ∃ n, i = .val n := by
  cases i <;> simp

end Writers

/-- Settles O40: the state after is `State.after`, whose parts each name their writers. -/
theorem writersOfEachRegister : Obligations.WritersOfEachRegister := by
  intro i s t h
  obtain ⟨-, rfl⟩ := exec_eq_next_iff.mp h
  exact ⟨onCrcr_eq_or i _, onCrcm_eq_or i _, onSyn_eq_or i _, waitingEvents_eq_or i _ _, waitingBytes_eq_or i _,
    swapOutput_eq_or i _, onVerdict_eq_or i _, rfl⟩

end Sys2Proof.Machine
end

section
/-!
One clock cycle (R47, R49, R88): its operations are all accepted, share no part of the state and so can be performed in any
order; and what a cycle without reset leaves in each register and on each output.
-/

namespace Sys2Proof

open Sys2Proof.Machine

/-! ### The operations of a cycle -/

section Units

variable (v : BitVec 10) (o : PortOperands)

/-- The operand ports have the widths the meanings ask for (R47, R206). -/
theorem accepted_of_mem_decodeUnits : ∀ i ∈ decodeUnits v o, i.accepted = true := by
  simp only [decodeUnits, List.forall_mem_append, decodeCrcBits, decodeSynBits, decodeSwpBit, decodeValBit, decodeEncBits]
  refine ⟨⟨⟨⟨?_, ?_⟩, ?_⟩, ?_⟩, ?_⟩ <;> split_ifs <;> simp [Instr.accepted, swapDomain, o.txmSel.isLt]

theorem accepted_of_mem_decodeOpv : ∀ i ∈ decodeOpv v o, i.accepted = true := by
  intro i hi
  by_cases hrst : i = .rst
  · rw [hrst]; rfl
  by_cases hnop : i = .nop
  · rw [hnop]; rfl
  exact accepted_of_mem_decodeUnits v o i ((mem_decodeOpv_iff hrst hnop).mp hi).2

/-- The parts of the state the operations of one cycle can change; an event belongs to the synchronizer. -/
inductive StatePart where
  | crcr | crcm | synchronizer | transmit | swapper | validator
deriving DecidableEq

/-- Which parts an operation of the ports can change; `RST` and the wire-format rows, which fire beside no other operation,
count as changing all. -/
def Instr.changes : Instr → StatePart → Bool
  | .crcInit, k => k = .crcr ∨ k = .crcm
  | .crcUpd _, k => k = .crcr
  | .crcUpdm _, k => k = .crcm
  | .rxClr, k | .rxByte _, k => k = .synchronizer
  | .swp _, k => k = .swapper
  | .val _, k => k = .validator
  | .txMotor _, k | .txPixel .., k => k = .transmit
  | .nop, _ => false
  | _, _ => true

theorem decodeOpv_of_decodeUnits_ne_nil {v : BitVec 10} {o : PortOperands} (hrst : v.getLsbD 9 = false)
    (hunits : decodeUnits v o ≠ []) : decodeOpv v o = decodeUnits v o := by
  cases hu : decodeUnits v o with
  | nil => exact absurd hu hunits
  | cons i is => simp only [decodeOpv, hrst, hu, Bool.false_eq_true, if_false]

/-- No part of the state is changed by two operations of one cycle (R88, D3). -/
theorem countP_changes_decodeUnits (k : StatePart) : (decodeUnits v o).countP (·.changes k) ≤ 1 := by
  have hcrc : (decodeCrcBits v o).countP (·.changes k) ≤ if k = .crcr ∨ k = .crcm then 1 else 0 := by
    unfold decodeCrcBits
    cases v.getLsbD 8 <;> cases v.getLsbD 7 <;> cases v.getLsbD 6 <;> cases k <;> simp [Instr.changes]
  have hsyn : (decodeSynBits v o).countP (·.changes k) ≤ if k = .synchronizer then 1 else 0 := by
    unfold decodeSynBits
    cases v.getLsbD 5 <;> cases v.getLsbD 4 <;> cases k <;> simp [Instr.changes]
  have hswp : (decodeSwpBit v o).countP (·.changes k) ≤ if k = .swapper then 1 else 0 := by
    unfold decodeSwpBit
    cases v.getLsbD 3 <;> cases k <;> simp [Instr.changes]
  have hval : (decodeValBit v o).countP (·.changes k) ≤ if k = .validator then 1 else 0 := by
    unfold decodeValBit
    cases v.getLsbD 2 <;> cases k <;> simp [Instr.changes]
  have henc : (decodeEncBits v o).countP (·.changes k) ≤ if k = .transmit then 1 else 0 := by
    unfold decodeEncBits
    cases v.getLsbD 1 <;> cases v.getLsbD 0 <;> cases k <;> simp [Instr.changes]
  simp only [decodeUnits, List.countP_append]
  cases k <;> simp only [reduceCtorEq, or_self, or_true, true_or, if_true, if_false] at hcrc hsyn hswp hval henc ⊢ <;> omega

end Units

end Sys2Proof

namespace Sys2Proof.Machine

/-! ### Their order -/

/-- Two different members of which both satisfy `f` are two to count. -/
theorem eq_of_countP_le_one {α : Type} {f : α → Bool} {l : List α} (h : l.countP f ≤ 1) {a b : α} (ha : a ∈ l)
    (hb : b ∈ l) (hfa : f a = true) (hfb : f b = true) : a = b := by
  rw [List.countP_eq_length_filter] at h
  have ha' : a ∈ l.filter f := List.mem_filter.mpr ⟨ha, hfa⟩
  have hb' : b ∈ l.filter f := List.mem_filter.mpr ⟨hb, hfb⟩
  match hl : l.filter f with
  | [] => rw [hl] at ha'; cases ha'
  | [x] => rw [hl, List.mem_singleton] at ha' hb'; rw [ha', hb']
  | _ :: _ :: _ => rw [hl] at h; simp at h

section Unchanged

variable {i : Instr}

theorem leaves_of_not_changes {k : StatePart} (h : i.changes k = false) {α : Type} (l : List α) : i.leaves l = l :=
  leaves_of_ne_rst (by rintro rfl; cases h) l

theorem onCrcr_of_not_changes (h : i.changes .crcr = false) (c : Word16) : i.onCrcr c = c := by
  cases i <;> simp [Instr.changes] at h ⊢

theorem onCrcm_of_not_changes (h : i.changes .crcm = false) (c : Word16) : i.onCrcm c = c := by
  cases i <;> simp [Instr.changes] at h ⊢

theorem onSyn_of_not_changes (h : i.changes .synchronizer = false) (y : Syn) : i.onSyn y = y := by
  cases i <;> simp [Instr.changes] at h ⊢

theorem raises_of_not_changes (h : i.changes .synchronizer = false) (y : Syn) : i.raises y = [] := by
  cases i <;> simp [Instr.changes] at h ⊢

theorem emits_of_not_changes (h : i.changes .transmit = false) : i.emits = [] := by
  cases i <;> simp [Instr.changes] at h ⊢

theorem swapped_of_not_changes (h : i.changes .swapper = false) : i.swapped = [] := by
  cases i <;> simp [Instr.changes] at h ⊢

theorem onVerdict_of_not_changes (h : i.changes .validator = false) (v : Option Verdict) : i.onVerdict v = v := by
  cases i <;> simp [Instr.changes] at h ⊢

end Unchanged

/-- Operations that change no part in common can be exchanged: of each part one of the two changes nothing, and `State.after`
reads no other part. -/
theorem State.after_comm {i j : Instr} (hij : ∀ k, i.changes k = false ∨ j.changes k = false) (s : State) :
    (s.after i).after j = (s.after j).after i := by
  simp only [State.after, State.mk.injEq, and_true]
  refine ⟨?_, ?_, ?_, ?_, ?_, ?_, ?_⟩
  · obtain h | h := hij .crcr <;> simp only [onCrcr_of_not_changes h]
  · obtain h | h := hij .crcm <;> simp only [onCrcm_of_not_changes h]
  · obtain h | h := hij .synchronizer <;> simp only [onSyn_of_not_changes h]
  · obtain h | h := hij .synchronizer <;>
      simp only [onSyn_of_not_changes h, raises_of_not_changes h, leaves_of_not_changes h, List.append_nil]
  · obtain h | h := hij .transmit <;> simp only [emits_of_not_changes h, leaves_of_not_changes h, List.append_nil]
  · obtain h | h := hij .swapper <;> simp only [swapped_of_not_changes h, leaves_of_not_changes h, List.append_nil]
  · obtain h | h := hij .validator <;> simp only [onVerdict_of_not_changes h]

theorem countP_changes_decodeOpv (v : BitVec 10) (o : PortOperands) (k : StatePart) :
    (decodeOpv v o).countP (·.changes k) ≤ 1 := by
  cases hrst : v.getLsbD 9 with
  | true => rw [decodeOpv_of_bit9 hrst]; exact List.countP_le_length
  | false =>
    by_cases hunits : decodeUnits v o = []
    · rw [decodeOpv_of_decodeUnits_eq_nil hrst hunits]; exact List.countP_le_length
    · rw [decodeOpv_of_decodeUnits_ne_nil hrst hunits]; exact countP_changes_decodeUnits v o k

/-- Two different operations of one cycle have no part in common. -/
theorem changes_of_mem_decodeOpv {v : BitVec 10} {o : PortOperands} {i j : Instr} (hi : i ∈ decodeOpv v o)
    (hj : j ∈ decodeOpv v o) (hne : i ≠ j) (k : StatePart) : i.changes k = false ∨ j.changes k = false := by
  by_contra h
  rw [not_or, Bool.not_eq_false, Bool.not_eq_false] at h
  exact hne (eq_of_countP_le_one (countP_changes_decodeOpv v o k) hi hj h.1 h.2)

/-- Settles O43: a permutation folds to the same state when its members can be exchanged pairwise. -/
theorem orderWithinACycleIsIrrelevant : Obligations.OrderWithinACycleIsIrrelevant := by
  intro v o s ops hops
  have hacc := accepted_of_mem_decodeOpv v o
  have hfold : ops.foldl State.after s = (decodeOpv v o).foldl State.after s := by
    refine hops.foldl_eq' (fun i hi j hj z => ?_) s
    rw [hops.mem_iff] at hi hj
    by_cases hij : i = j
    · rw [hij]
    · exact State.after_comm (changes_of_mem_decodeOpv hi hj hij) z
  exact ⟨_, execAll_of_accepted (fun i hi => hacc i (hops.mem_iff.mp hi)) s, hfold ▸ execAll_of_accepted hacc s⟩

/-! ### A cycle completes -/

theorem State.runCycle_eq (c : PortCycle) (s : State) : s.runCycle c =
    .next ((decodeOpv (portOpv c s) c.operands).foldl State.after (s.takeOutputs c)) :=
  execAll_of_accepted (accepted_of_mem_decodeOpv _ _) _

theorem State.runCycle_input {c : PortCycle} {s t : State} (h : s.runCycle c = .next t) : t.input = s.input :=
  execAll_input (s := s.takeOutputs c) h

/-- Driven at the ports, a step is a cycle, an idle one when nothing is left to present (log entry 24). -/
theorem step_eq_runCycle {s : State} (hcycles : ∀ x, x ∈ s.input → x.isCycle = true) :
    ∃ c, step s = (s.setInput s.input.tail).runCycle c := by
  cases hin : s.input with
  | nil =>
    have hs : s.setInput [] = s := by rw [State.setInput, ← hin]
    exact ⟨PortCycle.idle, by simp only [step, hin, List.tail_nil, hs]⟩
  | cons x rest =>
    have hx : x.isCycle = true := hcycles x (hin ▸ List.mem_cons_self)
    cases x with
    | cycle c => exact ⟨c, by simp only [step, hin, List.tail_cons]⟩
    | operation i => cases hx
    | encoded nbits w => cases hx

/-- Settles O48: the operations of a cycle are accepted, and none of them touches what the host has yet to present. -/
theorem everyPortCycleCompletes : Obligations.EveryPortCycleCompletes := by
  intro s hcycles
  obtain ⟨c, hstep⟩ := step_eq_runCycle hcycles
  have hrun := State.runCycle_eq c (s.setInput s.input.tail)
  exact ⟨_, hstep.trans hrun, State.runCycle_input hrun⟩

/-! ### What a cycle without reset leaves -/

section CycleParts

variable (v : BitVec 10) (o : PortOperands)

/-- SYN's registers after the synchronizer's part of a cycle. -/
def cycleSyn (y : Syn) : Syn :=
  if v.getLsbD 5 then Syn.empty else if v.getLsbD 4 then (y.rxByte Config.params o.rxByte).1 else y

/-- The events the synchronizer's part of a cycle raises: at most one (R208). -/
def cycleEvents (y : Syn) : List Event :=
  if v.getLsbD 5 then [] else if v.getLsbD 4 then (y.rxByte Config.params o.rxByte).2.toList else []

/-- The bytes of the command frame a cycle emits: none or all of one frame (R189). -/
def cycleFrame : List Byte :=
  if v.getLsbD 1 then motorFrame Config.params o.txmSel.toNat
  else if v.getLsbD 0 then pixelFrame Config.params o.txpStart o.txpCount o.txpRed o.txpGreen o.txpBlue o.txpStriplen
  else []

/-- The state after the operations of the five units. -/
def State.afterUnits (s : State) : State :=
  { crcr := if v.getLsbD 8 then 0#16 else if v.getLsbD 7 then crc16rUpdate s.crcr o.crcByte else s.crcr
    crcm := if v.getLsbD 8 then 0#16 else if v.getLsbD 6 then crc16mUpdate s.crcm o.crcByte else s.crcm
    syn := cycleSyn v o s.syn
    evPending := s.evPending ++ cycleEvents v o s.syn
    txPending := s.txPending ++ frameBytes (cycleFrame v o)
    swpOut := s.swpOut ++ if v.getLsbD 3 then [o.swpB, o.swpA] else []
    valOut := if v.getLsbD 2 then some (verdict (valFrameBytes o.valFrame)) else s.valOut
    input := s.input }

theorem execAll_decodeSynBits_eq (s : State) : execAll (decodeSynBits v o) s = .next { s with
    syn := cycleSyn v o s.syn, evPending := s.evPending ++ cycleEvents v o s.syn } := by
  rw [execAll_decodeSynBits, cycleSyn, cycleEvents, State.rxByte_eq]
  cases v.getLsbD 5 <;> cases v.getLsbD 4 <;> simp [State.setSyn]

theorem execAll_decodeEncBits_eq (s : State) : execAll (decodeEncBits v o) s =
    .next (s.emit (cycleFrame v o)) := by
  rw [execAll_decodeEncBits, cycleFrame]
  cases v.getLsbD 1 <;> cases v.getLsbD 0 <;> simp [State.emit, frameBytes]

/-- Unit after unit, each changing its own parts. -/
theorem execAll_decodeUnits (s : State) : execAll (decodeUnits v o) s = .next (s.afterUnits v o) := by
  rw [decodeUnits, List.append_assoc, List.append_assoc, List.append_assoc,
    execAll_append_next (execAll_decodeCrcBits v o s), execAll_append_next (execAll_decodeSynBits_eq v o _),
    execAll_append_next (execAll_decodeSwpBit v o _), execAll_append_next (execAll_decodeValBit v o _),
    execAll_decodeEncBits_eq, State.afterUnits]
  cases v.getLsbD 3 <;> cases v.getLsbD 2 <;> simp [State.emit, State.giveSwapped, State.giveVerdict]

end CycleParts

section CycleBits

variable (c : PortCycle) (s : State)

theorem portOpv_bit9 : (portOpv c s).getLsbD 9 = c.rst := opvOfBits_bit9 ..
theorem portOpv_bit8 : (portOpv c s).getLsbD 8 = c.crcInit := opvOfBits_bit8 ..
theorem portOpv_bit5 : (portOpv c s).getLsbD 5 = c.rxClr := opvOfBits_bit5 ..
theorem portOpv_bit4 : (portOpv c s).getLsbD 4 = (c.rxValid && s.rxReady c) := opvOfBits_bit4 ..
theorem portOpv_bit1 : (portOpv c s).getLsbD 1 = (c.txmValid && s.txmReady) := opvOfBits_bit1 ..
theorem portOpv_bit0 : (portOpv c s).getLsbD 0 = (c.txpValid && s.txpReady c) := opvOfBits_bit0 ..

end CycleBits

/-- A cycle without reset: outputs taken, then the units. -/
theorem State.runCycle_of_no_rst {c : PortCycle} (hrst : c.rst = false) (s : State) :
    s.runCycle c = .next ((s.takeOutputs c).afterUnits (portOpv c s) c.operands) := by
  rw [State.runCycle, execAll_decodeOpv_of_no_rst _ _ _ ((portOpv_bit9 c s).trans hrst), execAll_decodeUnits]

theorem State.runCycle_of_rst {c : PortCycle} (hrst : c.rst = true) (s : State) :
    s.runCycle c = .next (State.reset.setInput s.input) := by
  rw [State.runCycle, decodeOpv_of_bit9 ((portOpv_bit9 c s).trans hrst), execAll_single, exec_rst]
  rfl

theorem step_cycle_of_no_rst {s : State} {c : PortCycle} {rest : List Stimulus} (hin : s.input = .cycle c :: rest)
    (hrst : c.rst = false) :
    step s = .next (((s.setInput rest).takeOutputs c).afterUnits (portOpv c s) c.operands) := by
  simp only [step, hin]
  exact State.runCycle_of_no_rst hrst _

/-! ### Flow control -/

section FlowControl

variable {c : PortCycle} {s : State}

theorem length_cycleEvents_le_one (v : BitVec 10) (o : PortOperands) (y : Syn) : (cycleEvents v o y).length ≤ 1 := by
  unfold cycleEvents
  cases v.getLsbD 5 <;> cases v.getLsbD 4 <;> simp [Option.length_toList_le]

/-- While an event waits that is not taken, no byte is accepted (R49). -/
theorem portOpv_bit4_of_waiting (h : (s.takeOutputs c).evPending ≠ []) : (portOpv c s).getLsbD 4 = false := by
  have hready : s.rxReady c = false := by
    rw [State.rxReady, ← State.takeOutputs_evPending, List.isEmpty_eq_false_iff.mpr h, Bool.and_false]
  rw [portOpv_bit4, hready, Bool.and_false]

theorem cycleEvents_of_waiting (h : (s.takeOutputs c).evPending ≠ []) (y : Syn) :
    cycleEvents (portOpv c s) c.operands y = [] := by
  rw [cycleEvents, portOpv_bit4_of_waiting h, if_neg Bool.false_ne_true, ite_self]

theorem cycleSyn_of_waiting (h : (s.takeOutputs c).evPending ≠ []) (hclr : c.rxClr = false) (y : Syn) :
    cycleSyn (portOpv c s) c.operands y = y := by
  rw [cycleSyn, portOpv_bit4_of_waiting h, portOpv_bit5, hclr, if_neg Bool.false_ne_true, if_neg Bool.false_ne_true]

/-- While bytes of a frame wait, no command is accepted (R49). -/
theorem cycleFrame_of_waiting (h : s.txPending ≠ []) : cycleFrame (portOpv c s) c.operands = [] := by
  have hready : s.txPending.isEmpty = false := List.isEmpty_eq_false_iff.mpr h
  rw [cycleFrame, portOpv_bit1, portOpv_bit0, State.txmReady, State.txpReady, hready, Bool.false_and, Bool.and_false,
    Bool.and_false, if_neg Bool.false_ne_true, if_neg Bool.false_ne_true]

/-- At most one event waits after a cycle when at most one waited before it (R208). -/
theorem length_evPending_le_one (h : s.evPending.length ≤ 1) :
    ((s.takeOutputs c).evPending ++ cycleEvents (portOpv c s) c.operands s.syn).length ≤ 1 := by
  by_cases hev : (s.takeOutputs c).evPending = []
  · rw [hev]
    exact length_cycleEvents_le_one _ _ _
  · rw [cycleEvents_of_waiting hev, List.append_nil, State.takeOutputs_evPending]
    split_ifs
    · rw [List.length_tail]; omega
    · exact h

end FlowControl

/-- Settles O49: what waits and is not taken shuts the unit's bits of the vector. -/
theorem waitingOutputsHoldTheirInputs : Obligations.WaitingOutputsHoldTheirInputs := by
  intro s t c rest hin hrst hstep
  rw [step_cycle_of_no_rst hin hrst] at hstep
  cases hstep
  refine ⟨fun hready hev => ?_, fun hready htx => ?_, fun hready htx => ?_⟩
  · have hwait : (s.takeOutputs c).evPending ≠ [] := by simpa [hready] using hev
    refine ⟨?_, fun hclr => cycleSyn_of_waiting hwait hclr _⟩
    simp [State.afterUnits, cycleEvents_of_waiting hwait, hready]
  · simp [State.afterUnits, cycleFrame_of_waiting htx, hready, frameBytes]
  · simp [State.afterUnits, cycleFrame_of_waiting htx, hready, frameBytes]

/-- Settles O50: each priority is a bit of the vector tested before another. -/
theorem portPriorities : Obligations.PortPriorities := by
  intro s t c rest hin hrst hstep
  rw [step_cycle_of_no_rst hin hrst] at hstep
  cases hstep
  refine ⟨fun hclr => ⟨?_, ?_⟩, fun hmotor _ htx => ?_, fun hinit => ⟨?_, ?_⟩⟩
  · simp only [State.afterUnits, cycleSyn, portOpv_bit5, hclr, if_true]
  · simp only [State.afterUnits, cycleEvents, portOpv_bit5, hclr, if_true, List.append_nil, State.takeOutputs_evPending,
      State.setInput_evPending]
  · have hbit : (portOpv c s).getLsbD 1 = true := by simp [portOpv_bit1, State.txmReady, hmotor, htx]
    simp [State.afterUnits, cycleFrame, hbit, htx]
  · simp only [State.afterUnits, portOpv_bit8, hinit, if_true]
  · simp only [State.afterUnits, portOpv_bit8, hinit, if_true]

/-! ### The rest of one frame -/

/-- `tx_last` is with the last byte of a frame and no other (R48). -/
theorem frameBytes_concat (b : Byte) : ∀ l : List Byte, frameBytes (l ++ [b]) = l.map (⟨·, false⟩) ++ [⟨b, true⟩]
  | [] => rfl
  | [_] => rfl
  | x :: y :: rest => congrArg (List.cons (⟨x, false⟩ : TxByte)) (frameBytes_concat b (y :: rest))

theorem oneFrameLeft_frameBytes {l : List Byte} (h : l.length ≤ pixelFrameLen) : oneFrameLeft (frameBytes l) = true := by
  obtain rfl | ⟨m, b, rfl⟩ := l.eq_nil_or_concat'
  · rfl
  · rw [List.length_append, List.length_singleton] at h
    simp [oneFrameLeft, frameBytes_concat, h]

theorem oneFrameLeft_tail : ∀ {l : List TxByte}, oneFrameLeft l = true → oneFrameLeft l.tail = true
  | [], _ => rfl
  | [_], _ => rfl
  | x :: y :: rest, h => by
    simp only [oneFrameLeft, List.length_cons, List.dropLast_cons_cons, List.all_cons, List.getLast?_cons_cons, Bool.and_eq_true,
      decide_eq_true_eq] at h
    obtain ⟨⟨hlen, -, hbefore⟩, hlast⟩ := h
    simp only [oneFrameLeft, List.tail_cons, List.length_cons, hbefore, hlast, Bool.and_true]
    exact decide_eq_true ((Nat.le_succ _).trans hlen)

theorem oneFrameLeft_cycleFrame (v : BitVec 10) (o : PortOperands) : oneFrameLeft (frameBytes (cycleFrame v o)) = true := by
  refine oneFrameLeft_frameBytes ?_
  unfold cycleFrame
  split_ifs <;> simp [pixelFrameLen]

/-- The bytes that wait after a cycle are the rest of what waited, or one frame when nothing waited (R189). -/
theorem oneFrameLeft_after {c : PortCycle} {s : State} (h : oneFrameLeft s.txPending = true) :
    oneFrameLeft ((s.takeOutputs c).txPending ++ frameBytes (cycleFrame (portOpv c s) c.operands)) = true := by
  by_cases htx : s.txPending = []
  · rw [State.takeOutputs_txPending, htx, List.tail_nil, ite_self, List.nil_append]
    exact oneFrameLeft_cycleFrame _ _
  · rw [cycleFrame_of_waiting htx, frameBytes, List.append_nil, State.takeOutputs_txPending]
    split_ifs
    · exact oneFrameLeft_tail h
    · exact h

theorem State.portDriven_of_runCycle {c : PortCycle} {s t : State} (hs : s.PortDriven) (h : s.runCycle c = .next t) :
    t.PortDriven := by
  have hcycles : ∀ x, x ∈ t.input → x.isCycle = true := State.runCycle_input h ▸ hs.cycles
  cases hrst : c.rst with
  | true =>
    rw [State.runCycle_of_rst hrst] at h
    cases h
    exact ⟨hcycles, Nat.zero_le 1, rfl⟩
  | false =>
    rw [State.runCycle_of_no_rst hrst] at h
    cases h
    exact ⟨hcycles, length_evPending_le_one hs.oneEvent, oneFrameLeft_after hs.oneFrame⟩

/-- Settles O52: driven at the ports a step is a cycle, which takes outputs before it adds to them and adds only to an output
on which nothing is left. -/
theorem portDrivenRunsHoldOneEventAndOneFrame : Obligations.PortDrivenRunsHoldOneEventAndOneFrame := by
  intro s t hs hstep
  obtain ⟨c, hc⟩ := step_eq_runCycle hs.cycles
  rw [hc] at hstep
  have hsend : (s.setInput s.input.tail).PortDriven :=
    ⟨fun x hx => hs.cycles x (List.mem_of_mem_tail hx), hs.oneEvent, hs.oneFrame⟩
  exact State.portDriven_of_runCycle hsend hstep

/-! ### Nothing is lost -/

/-- What waits is what a step takes, and then what it leaves for its operations to add to. -/
theorem State.taken_append_performedFrom (s : State) :
    s.eventsTaken ++ s.performedFrom.evPending = s.evPending ∧ s.bytesTaken ++ s.performedFrom.txPending = s.txPending := by
  cases hin : s.input with
  | nil => simp [State.eventsTaken, State.bytesTaken, State.performedFrom, hin, PortCycle.idle]
  | cons x rest =>
    cases x with
    | cycle c =>
      cases hev : c.evReady <;> cases htx : c.txReady <;>
        simp [State.eventsTaken, State.bytesTaken, State.performedFrom, hin, hev, htx, ← List.drop_one]
    | operation i => simp [State.eventsTaken, State.bytesTaken, State.performedFrom, hin]
    | encoded nbits w => simp [State.eventsTaken, State.bytesTaken, State.performedFrom, hin]

/-- Settles O51: what the cycle adds are `cycleEvents` and the frame of `cycleFrame`, behind what is left after taking. -/
theorem outputsLeaveInOrder : Obligations.OutputsLeaveInOrder := by
  intro s t c rest hin hrst hstep
  rw [step_cycle_of_no_rst hin hrst] at hstep
  cases hstep
  have hfrom : s.performedFrom = (s.setInput rest).takeOutputs c := by rw [State.performedFrom, hin]
  obtain ⟨hev, htx⟩ := s.taken_append_performedFrom
  refine ⟨cycleEvents (portOpv c s) c.operands s.syn, frameBytes (cycleFrame (portOpv c s) c.operands),
    length_cycleEvents_le_one _ _ _, oneFrameLeft_cycleFrame _ _, ?_, ?_⟩
  · rw [← hev, hfrom, List.append_assoc]
    rfl
  · rw [← htx, hfrom, List.append_assoc]
    rfl

end Sys2Proof.Machine
end

section
/-!
The good states (R34, R140): a byte shifted in keeps what `ACC`, `IDX`, `CNT` and `BUF` say of each other, a full window
ends in the delimiter it matched (R133), and every event and verdict has what its kind promises (R166, R202, R203).
-/

namespace Sys2Proof.Machine

/-! ### The registers of the synchronizer -/

theorem Syn.wf_iff {y : Syn} : y.wf = true ↔
    y.buf.wf = true ∧ y.idx.toNat ≤ 23 ∧ y.cnt.toNat ≤ 24 ∧ (y.cnt.toNat = 24 ∨ y.idx = y.cnt) := by
  simp [Syn.wf, and_assoc]

theorem Syn.wf_empty : Syn.empty.wf = true := rfl

theorem Syn.wf_shiftIn {y : Syn} (h : y.wf = true) (b : Byte) : (y.shiftIn b).wf = true := by
  obtain ⟨hbuf, -, hcnt, hidx⟩ := Syn.wf_iff.mp h
  refine Syn.wf_iff.mpr ⟨Memory.wf_write hbuf _ b, ?_, ?_, ?_⟩
  · rw [Syn.shiftIn_idx]; omega
  · rw [Syn.shiftIn_cnt]; omega
  · rw [← BitVec.toNat_inj, Syn.shiftIn_idx, Syn.shiftIn_cnt]
    obtain hfull | heq := hidx
    · omega
    · rw [heq]; omega

/-- The newest byte of the accumulator (R33). -/
theorem accByte_shiftIn_zero (a : Word32) (b : Byte) : accByte ((a <<< 8) ||| b.zeroExtend 32) 0 = b := by
  apply BitVec.eq_of_getLsbD_eq
  intro i hi
  have h32 : i < 32 := by omega
  simp [accByte, hi, h32]

/-- The bytes before it move up by one. -/
theorem accByte_shiftIn_succ (a : Word32) (b : Byte) {j : Nat} (hj : j < 3) :
    accByte ((a <<< 8) ||| b.zeroExtend 32) (j + 1) = accByte a j := by
  apply BitVec.eq_of_getLsbD_eq
  intro i hi
  have h32 : 8 * (j + 1) + i < 32 := by omega
  have h8 : ¬ 8 * (j + 1) + i < 8 := by omega
  have hsub : 8 * (j + 1) + i - 8 = 8 * j + i := by omega
  have hb : b.getLsbD (8 * (j + 1) + i) = false := BitVec.getLsbD_of_ge b _ (by omega)
  simp only [accByte, BitVec.getLsbD_extractLsb', BitVec.getLsbD_or, BitVec.getLsbD_shiftLeft, BitVec.truncate_eq_setWidth,
    BitVec.getLsbD_setWidth, hi, h32, h8, hsub, hb, decide_true, decide_false, Bool.not_false, Bool.true_and, Bool.and_false,
    Bool.or_false]

theorem Syn.accTracks_empty : Syn.empty.accTracks := by
  intro j _
  simp [accByte]

theorem Syn.accTracks_shiftIn {y : Syn} (hwf : y.wf = true) (h : y.accTracks) (b : Byte) : (y.shiftIn b).accTracks := by
  have hbuf : y.buf.wf = true := (Syn.wf_iff.mp hwf).1
  intro j hj
  rw [Syn.shiftIn_acc, Syn.shiftIn_buf, Syn.shiftIn_cnt, Syn.shiftIn_idx, Memory.read_write hbuf]
  cases j with
  | zero =>
    have hpos : 0 < min (y.cnt.toNat + 1) 24 := by omega
    have hidx : ((y.idx.toNat + 1) % 24 + 23 - 0) % 24 = y.idx.toNat % 24 := by omega
    rw [accByte_shiftIn_zero, if_pos hpos, if_pos hidx]
  | succ j =>
    have hidx : ((y.idx.toNat + 1) % 24 + 23 - (j + 1)) % 24 ≠ y.idx.toNat % 24 := by omega
    have hcnt : j + 1 < min (y.cnt.toNat + 1) 24 ↔ j < y.cnt.toNat := by omega
    have hmod : ((y.idx.toNat + 1) % 24 + 23 - (j + 1)) % 24 = (y.idx.toNat + 23 - j) % 24 := by omega
    have hread : y.buf.read ((y.idx.toNat + 1) % 24 + 23 - (j + 1)) = y.buf.read (y.idx.toNat + 23 - j) := by
      rw [← Memory.read_mod, hmod, Memory.read_mod]
    rw [accByte_shiftIn_succ _ _ (by omega), h j (by omega), if_neg hidx, hread]
    simp only [hcnt]

/-! ### The window at a match -/

theorem delimBytes_eq (p : Params) :
    p.delimBytes = [accByte p.delim 3, accByte p.delim 2, accByte p.delim 1, accByte p.delim 0] := rfl

/-- The last four bytes of the window are the accumulator's, oldest first (R133, R140). -/
theorem Syn.window_drop_of_accTracks {y : Syn} (h : y.accTracks) (hcnt : 4 ≤ y.cnt.toNat) :
    y.window.drop 20 = [accByte y.acc 3, accByte y.acc 2, accByte y.acc 1, accByte y.acc 0] := by
  have hbyte : ∀ j, j < 4 → accByte y.acc j = y.buf.read (y.idx.toNat + 23 - j) := fun j hj => by
    rw [h j hj, if_pos (by omega)]
  rw [hbyte 3 (by decide), hbyte 2 (by decide), hbyte 1 (by decide), hbyte 0 (by decide)]
  rfl

/-- Settles O16: the byte shifted in keeps `accTracks`, so the window ends in the accumulator, which is the delimiter. -/
theorem fullWindowEndsInDelimiter : Obligations.FullWindowEndsInDelimiter := by
  intro p b y hwf htracks hcnt hacc
  have hfull : 4 ≤ (y.shiftIn b).cnt.toNat := by rw [Syn.shiftIn_cnt]; omega
  rw [Syn.window_drop_of_accTracks (Syn.accTracks_shiftIn hwf htracks b) hfull, hacc, delimBytes_eq]

/-! ### Events and verdicts -/

/-- The first bytes of a list, two by two. -/
theorem take_two_mul_eq_flatMap : ∀ (k : Nat) (n : List Byte), 2 * k ≤ n.length →
    n.take (2 * k) = (List.range k).flatMap fun i => [n.getD (2 * i) 0#8, n.getD (2 * i + 1) 0#8]
  | 0, _, _ => rfl
  | k + 1, n, hn => by
    have hlo : 2 * k < n.length := by omega
    have hhi : 2 * k + 1 < n.length := by omega
    rw [List.range_succ, List.flatMap_append, ← take_two_mul_eq_flatMap k n (by omega), List.flatMap_singleton, Nat.mul_succ,
      List.take_add_one, List.take_add_one, List.getElem?_eq_getElem hlo, List.getElem?_eq_getElem hhi,
      List.getD_eq_getElem _ _ hlo, List.getD_eq_getElem _ _ hhi, List.append_assoc]
    rfl

/-- The content of a decoded frame is that of the frame (R163, R166). -/
theorem contentBytes_decodeTelemetry {n : List Byte} (hn : n.length = 24) :
    (decodeTelemetry n).contentBytes = n.take contentLen := by
  have htake : n.take contentLen = _ := take_two_mul_eq_flatMap 9 n (by omega)
  rw [htake]
  simp [TelemetryFrame.contentBytes, TelemetryFrame.words, decodeTelemetry, frameWord, List.range_succ]

theorem checksumHolds_decodeTelemetry {n : List Byte} (hn : n.length = 24) (hvalid : validate n = true) :
    (decodeTelemetry n).checksumHolds = true := by
  rw [TelemetryFrame.checksumHolds, contentBytes_decodeTelemetry hn]
  exact hvalid

/-- A verdict that passes carries a frame with its CRC (R164). -/
theorem Verdict.wf_verdict {n : List Byte} (hn : n.length = 24) : (verdict n).wf = true := by
  unfold verdict
  split_ifs with hvalid
  · exact checksumHolds_decodeTelemetry hn hvalid
  · rfl

/-- The verdict on a candidate frame is borne out either way: a frame that passes has its CRC, one that fails is 24 bytes
that end in the delimiter (R166, R202). -/
theorem Event.wf_receiveFrame {p : Params} {w : List Byte} (hw : w.length = 24) (hdelim : endsInDelim p w = true) :
    (receiveFrame w).wf p = true := by
  unfold receiveFrame
  split_ifs with hvalid
  · have hlen : (swapPairs w).length = 24 := by rw [length_swapPairs, hw]
    exact checksumHolds_decodeTelemetry hlen hvalid
  · simp [Event.wf, hw, hdelim, hvalid]

/-- The event of a match (R131): a full window is a candidate frame, a count below 24 is one of 1 to 23. -/
theorem Event.wf_matchEvent_shiftIn {p : Params} {y : Syn} (hwf : y.wf = true) (htracks : y.accTracks) {b : Byte}
    (hmatch : (y.shiftIn b).acc = p.delim) : ((y.shiftIn b).matchEvent).wf p = true := by
  by_cases hcnt : y.cnt.toNat + 1 < 24
  · rw [Syn.matchEvent_shiftIn_of_lt b hcnt]
    simp only [Event.wf, BitVec.toNat_ofNat, Bool.and_eq_true, decide_eq_true_eq]
    omega
  · have hdelim : endsInDelim p (y.shiftIn b).window = true :=
      beq_iff_eq.mpr (fullWindowEndsInDelimiter p b y hwf htracks (by omega) hmatch)
    rw [Syn.matchEvent_shiftIn_of_le b (by omega)]
    exact Event.wf_receiveFrame (Syn.length_window _) hdelim

/-! ### Operations and steps -/

section Good

variable {p : Params} {s : State}

theorem State.Good.rxByte (hs : s.Good p) (b : Byte) : (s.rxByte p b).Good p := by
  obtain ⟨hwf, htracks, hevents, hverdict⟩ := hs
  obtain ⟨-, h⟩ | ⟨hmatch, h⟩ := s.rxByte_cases p b
  · rw [h]
    exact ⟨Syn.wf_shiftIn hwf b, Syn.accTracks_shiftIn hwf htracks b, hevents, hverdict⟩
  · rw [h]
    refine ⟨Syn.wf_empty, Syn.accTracks_empty, ?_, hverdict⟩
    simp only [State.raise_evPending, State.setSyn_evPending, List.forall_mem_append, List.forall_mem_singleton]
    exact ⟨hevents, Event.wf_matchEvent_shiftIn hwf htracks hmatch⟩

theorem State.Good.rxChunk : ∀ (bs : List Byte) {s : State}, s.Good p → (s.rxChunk p bs).Good p
  | [], _, hs => hs
  | b :: bs, _, hs => State.Good.rxChunk bs (hs.rxByte b)

/-- The invariant speaks of SYN, the waiting events and the verdict alone; of these an empty SYN is good, and no event and
no verdict are. -/
theorem State.Good.of_parts {t : State} (hs : s.Good p) (hsyn : t.syn = s.syn ∨ t.syn = Syn.empty)
    (hev : ∀ e, e ∈ t.evPending → e ∈ s.evPending) (hval : ∀ v, t.valOut = some v → s.valOut = some v ∨ v.wf = true) :
    t.Good p := by
  obtain ⟨hwf, htracks, hevents, hverdict⟩ := hs
  have hsynGood : t.syn.wf = true ∧ t.syn.accTracks := by
    obtain h | h := hsyn
    · rw [h]; exact ⟨hwf, htracks⟩
    · rw [h]; exact ⟨Syn.wf_empty, Syn.accTracks_empty⟩
  exact ⟨hsynGood.1, hsynGood.2, fun e he => hevents e (hev e he), fun v hv => (hval v hv).elim (hverdict v) id⟩

/-- Bytes received aside, an operation keeps SYN or empties it and raises nothing. -/
theorem State.Good.exec {s t : State} {i : Instr} (hs : s.Good Config.params) (h : Machine.exec i s = .next t) :
    t.Good Config.params := by
  obtain ⟨hacc, rfl⟩ := exec_eq_next_iff.mp h
  cases i with
  | rxByte b =>
    rw [exec_rxByte] at h
    exact Host.Outcome.next.inj h ▸ hs.rxByte b
  | frameTelemetry w =>
    rw [exec_frameTelemetry_of_length s (by simpa [Instr.accepted] using hacc)] at h
    exact Host.Outcome.next.inj h ▸ State.Good.rxChunk w hs
  | val n =>
    have hn : n.length = 24 := by simpa [Instr.accepted] using hacc
    refine hs.of_parts (.inl rfl) (by simp [State.after]) fun v hv => .inr ?_
    cases hv
    exact Verdict.wf_verdict hn
  | rst => exact hs.of_parts (.inr rfl) (by simp [State.after]) (by simp [State.after])
  | rxClr => exact hs.of_parts (.inr rfl) (by simp [State.after]) fun _ => .inl
  | _ => exact hs.of_parts (.inl rfl) (by simp [State.after]) fun _ => .inl

end Good

/-- Settles O53: operations keep the invariant (`State.Good.exec`); taking and delivering outputs only drops events and
verdicts. -/
theorem goodStateKept : Obligations.GoodStateKept := by
  intro s t hs hstep
  refine step_keeps (I := fun u => u.Good Config.params) (fun _ _ _ hu h => hu.exec h) (fun c u hu => ?_) (fun u hu => ?_)
    (fun q u hu => ?_) hs hstep
  · refine hu.of_parts (.inl rfl) (fun e he => ?_) (by simp)
    rw [State.takeOutputs_evPending] at he
    split_ifs at he
    · exact List.mem_of_mem_tail he
    · exact he
  · exact hu.of_parts (.inl rfl) (by simp) (by simp)
  · exact hu.of_parts (.inl rfl) (fun _ => id) fun _ => .inl

theorem State.reset_good (p : Params) : State.reset.Good p :=
  ⟨Syn.wf_empty, Syn.accTracks_empty, List.forall_mem_nil _, fun _ h => nomatch h⟩

/-- Settles O54: nothing waits, and the empty SYN meets its invariants. -/
theorem resetIsGood : Obligations.ResetIsGood :=
  ⟨State.reset_good _, List.forall_mem_nil _, Nat.zero_le 1, rfl⟩

end Sys2Proof.Machine
end

section
/-!
Steps and runs: what is presented is what a step performs (R46, R73; log entries 1, 3, 4), the streams hold what the
operations raise and emit (R48, R200), and a step is of one block among several (R52).
-/

namespace Sys2Proof.Machine

/-! ### What a step performs -/

theorem decodeWord_of_decodeTableWord {nbits w : Nat} {i : Instr} (h : decodeTableWord nbits w = some i) :
    decodeWord Config.params nbits w = .ok [i] := by
  unfold decodeTableWord at h
  split at h
  · next hd => rw [hd, Option.some.inj h]
  · cases h

/-- A table word put in front is the next one performed, and what stood behind it comes after it. -/
theorem step_withFetchWord {nbits w : Nat} {is : List Instr} (hd : decodeWord Config.params nbits w = .ok is) (s : State) :
    step (s.withFetchWord nbits w) = execAll is s.clearOutputs := by
  have hstep : step (s.withFetchWord nbits w) = s.runEncoded nbits w := rfl
  rw [hstep, State.runEncoded, hd]

/-- Settles O46: each presentation has its arm of `step`. -/
theorem stepPerformsThePresentation : Obligations.StepPerformsThePresentation := by
  refine ⟨fun s c rest hin => ?_, fun s i rest hin => ?_, fun s nbits w i hdecode => ?_⟩
  · simp only [step, hin]
    rfl
  · simp only [step, hin]
    rfl
  · rw [step_withFetchWord (decodeWord_of_decodeTableWord hdecode), execAll_single]
    rfl

/-- Settles O47: a cycle with `rst` is `RST` alone (`State.runCycle_of_rst`). -/
theorem resetCycleOverridesEverything : Obligations.ResetCycleOverridesEverything := by
  intro s c rest hin hrst
  simp only [step, hin]
  exact State.runCycle_of_rst hrst _

/-! ### The streams -/

/-- What waits after operations other than `RST` is what waited and what they raised and emitted, in order. -/
theorem execAll_pending : ∀ {is : List Instr} {s t : State}, Instr.rst ∉ is → execAll is s = .next t →
    t.evPending = s.evPending ++ eventsRaisedByAll is s ∧ t.txPending = s.txPending ++ bytesEmittedByAll is s
  | [], s, t, _, h => by cases h; simp
  | i :: is, s, t, hrst, h => by
    obtain ⟨hi, his⟩ : Instr.rst ≠ i ∧ Instr.rst ∉ is := by simpa using hrst
    cases hexec : exec i s with
    | next u =>
      rw [execAll_cons_next s hexec] at h
      obtain ⟨hev, htx⟩ := execAll_pending his h
      rw [hev, htx, exec_evPending hi.symm hexec, exec_txPending hi.symm hexec, eventsRaisedByAll_cons_next hexec,
        bytesEmittedByAll_cons_next hexec, List.append_assoc, List.append_assoc]
      exact ⟨rfl, rfl⟩
    | fault f => simp [execAll, hexec] at h
    | refused r => simp [execAll, hexec] at h

/-- Settles O58: a step takes from what waited (`taken_append_performedFrom`) and its operations add behind the rest. -/
theorem streamsHoldWhatIsRaised : Obligations.StreamsHoldWhatIsRaised := by
  intro s t hstep hrst
  obtain ⟨hev, htx⟩ := execAll_pending hrst (step_performs hstep)
  obtain ⟨hevTaken, htxTaken⟩ := s.taken_append_performedFrom
  rw [hev, htx, ← List.append_assoc, ← List.append_assoc, hevTaken, htxTaken]
  exact ⟨rfl, rfl⟩

theorem eventsRaisedBy_of_accepted {i : Instr} (hacc : i.accepted = true) (hi : i ≠ .rst) (s : State) :
    eventsRaisedBy i s = i.raises s.syn := by
  simp [eventsRaisedBy, exec_of_accepted hacc, State.after]

theorem bytesEmittedBy_of_accepted {i : Instr} (hacc : i.accepted = true) (hi : i ≠ .rst) (s : State) :
    bytesEmittedBy i s = i.emits := by
  simp [bytesEmittedBy, exec_of_accepted hacc, State.after]

/-- What a run of operations raises and emits depends on the synchronizer's registers alone, so not on what is taken between the
steps. -/
theorem streams_of_execAll : ∀ (ops : List Instr) {s s₀ u : State}, s.input = ops.map .operation → Instr.rst ∉ ops →
    s₀.syn = s.syn → execAll ops s₀ = .next u →
    u.evPending = s₀.evPending ++ evStream ops.length s ∧ u.txPending = s₀.txPending ++ txStream ops.length s
  | [], s, s₀, u, _, _, _, h => by cases h; simp [evStream, txStream]
  | i :: ops, s, s₀, u, hin, hrst, hsyn, h => by
    obtain ⟨hne, hops⟩ : Instr.rst ≠ i ∧ Instr.rst ∉ ops := by simpa using hrst
    have hi : i ≠ .rst := Ne.symm hne
    cases hexec : exec i s₀ with
    | fault f => simp [execAll, hexec] at h
    | refused r => simp [execAll, hexec] at h
    | next u₁ =>
      rw [execAll_cons_next s₀ hexec] at h
      obtain ⟨hacc, rfl⟩ := exec_eq_next_iff.mp hexec
      have hstep : step s = .next ((s.setInput (ops.map .operation)).clearOutputs.after i) := by
        simp only [step, hin, List.map_cons]
        exact exec_of_accepted hacc _
      have hsyn₁ : (s₀.after i).syn = ((s.setInput (ops.map .operation)).clearOutputs.after i).syn :=
        congrArg i.onSyn hsyn
      obtain ⟨hev, htx⟩ := streams_of_execAll ops rfl hops hsyn₁ h
      rw [hev, htx, List.length_cons, evStream_succ_next hstep, txStream_succ_next hstep, State.eventsRaised_operation hin,
        State.bytesEmitted_operation hin, eventsRaisedBy_of_accepted hacc hi, bytesEmittedBy_of_accepted hacc hi,
        ← List.append_assoc, ← List.append_assoc]
      simp only [State.after, leaves_of_ne_rst hi, hsyn, State.clearOutputs_syn, State.setInput_syn, and_self]

/-- Settles O59: `streams_of_execAll` from the state itself. -/
theorem streamsOfOperations : Obligations.StreamsOfOperations := fun ops _ _ hin hrst h =>
  streams_of_execAll ops hin hrst rfl h

/-! ### Several blocks -/

/-- Settles O57: `stepInstance` writes the one place it steps. -/
theorem instancesAreIndependent : Obligations.InstancesAreIndependent := by
  intro k m s hk
  have hlt : k < m.length := (List.getElem?_eq_some_iff.mp hk).1
  refine ⟨fun t ht => ?_, fun r hr => by simp only [stepInstance, hk, hr]⟩
  exact ⟨m.set k t, by simp only [stepInstance, hk, ht], List.length_set, List.getElem?_set_self hlt,
    fun j hj => List.getElem?_set_ne (Ne.symm hj)⟩

end Sys2Proof.Machine
end

section
/-!
The CRC functions (R110 to R121). The step of the reflected CRC is linear over XOR and injective, and its mirror image is
the step of the MSB-first one; the laws of both updates and of the CRC of a message follow from these three facts.
-/

namespace Sys2Proof.Machine

/-! ### One step -/

theorem crc16rBit_eq (t : Word16) : crc16rBit t = (t >>> 1) ^^^ (if t.getLsbD 0 then polyR else 0#16) := by
  unfold crc16rBit
  split_ifs
  · rfl
  · rw [BitVec.xor_zero]

theorem crc16rBit_xor (a b : Word16) : crc16rBit (a ^^^ b) = crc16rBit a ^^^ crc16rBit b := by
  have hpoly : (if (a ^^^ b).getLsbD 0 then polyR else 0#16) =
      (if a.getLsbD 0 then polyR else 0#16) ^^^ (if b.getLsbD 0 then polyR else 0#16) := by
    rw [BitVec.getLsbD_xor]
    cases a.getLsbD 0 <;> cases b.getLsbD 0 <;> decide
  rw [crc16rBit_eq, crc16rBit_eq, crc16rBit_eq, hpoly, BitVec.ushiftRight_xor_distrib]
  ac_rfl

/-- The bit shifted out comes back as bit 15, for `POLY_R` has bit 15 set. -/
theorem crc16rBit_bit15 (t : Word16) : (crc16rBit t).getLsbD 15 = t.getLsbD 0 := by
  rw [crc16rBit_eq, BitVec.getLsbD_xor, BitVec.getLsbD_ushiftRight, BitVec.getLsbD_of_ge t (1 + 15) (by decide)]
  cases t.getLsbD 0 <;> rfl

/-- No step loses a bit. -/
theorem crc16rBit_injective : Function.Injective crc16rBit := by
  intro a b h
  have hlow : a.getLsbD 0 = b.getLsbD 0 := by rw [← crc16rBit_bit15, ← crc16rBit_bit15, h]
  rw [crc16rBit_eq, crc16rBit_eq, hlow, BitVec.xor_left_inj] at h
  apply BitVec.eq_of_getLsbD_eq
  intro i _
  cases i with
  | zero => exact hlow
  | succ i =>
    have hi := congrArg (·.getLsbD i) h
    simpa only [BitVec.getLsbD_ushiftRight, Nat.add_comm 1 i] using hi

/-! ### The update -/

theorem applyN_xor {f : Word16 → Word16} (hf : ∀ a b, f (a ^^^ b) = f a ^^^ f b) :
    ∀ (n : Nat) (a b : Word16), applyN f n (a ^^^ b) = applyN f n a ^^^ applyN f n b
  | 0, _, _ => rfl
  | n + 1, a, b => by rw [applyN, hf, applyN_xor hf n, applyN, applyN]

theorem applyN_injective {α : Type} {f : α → α} (hf : Function.Injective f) : ∀ n, Function.Injective (applyN f n)
  | 0 => Function.injective_id
  | n + 1 => (applyN_injective hf n).comp hf

theorem zeroExtend_xor (a b : Byte) : (a ^^^ b).zeroExtend 16 = a.zeroExtend 16 ^^^ b.zeroExtend 16 := BitVec.setWidth_xor

/-- The update is linear over XOR (R111 (b)). -/
theorem crc16rUpdate_xor (c₁ c₂ : Word16) (b₁ b₂ : Byte) :
    crc16rUpdate (c₁ ^^^ c₂) (b₁ ^^^ b₂) = crc16rUpdate c₁ b₁ ^^^ crc16rUpdate c₂ b₂ := by
  have hsum : (c₁ ^^^ c₂) ^^^ (b₁ ^^^ b₂).zeroExtend 16 = (c₁ ^^^ b₁.zeroExtend 16) ^^^ (c₂ ^^^ b₂.zeroExtend 16) := by
    rw [zeroExtend_xor]
    ac_rfl
  rw [crc16rUpdate, hsum, applyN_xor crc16rBit_xor, crc16rUpdate, crc16rUpdate]

@[simp] theorem crc16rUpdate_zero : crc16rUpdate 0#16 0#8 = 0#16 := by decide

/-- For a fixed byte no register value is lost. -/
theorem crc16rUpdate_injective (b : Byte) : Function.Injective fun c => crc16rUpdate c b := fun _ _ h =>
  (BitVec.xor_left_inj _).mp (applyN_injective crc16rBit_injective 8 h)

/-- For a fixed register no byte is lost. -/
theorem crc16rUpdate_byte_injective (c : Word16) : Function.Injective (crc16rUpdate c) := fun a b h => by
  have hext := (BitVec.xor_right_inj _).mp (applyN_injective crc16rBit_injective 8 h)
  have hlow := congrArg (BitVec.setWidth 8) hext
  simpa using hlow

/-- A step with the low bit clear is a shift: `n` zeros below are shifted out again. -/
theorem applyN_crc16rBit_shiftLeft (x : Word16) : ∀ n, n ≤ 8 → applyN crc16rBit n ((x >>> 8) <<< n) = x >>> 8
  | 0, _ => by simp [applyN]
  | n + 1, hn => by
    have hstep : crc16rBit ((x >>> 8) <<< (n + 1)) = (x >>> 8) <<< n := by
      have hlow : ((x >>> 8) <<< (n + 1)).getLsbD 0 = false := by simp
      rw [crc16rBit_eq, hlow, if_neg Bool.false_ne_true, BitVec.xor_zero]
      apply BitVec.eq_of_getLsbD_eq
      intro i hi
      have hsub : 1 + i - (n + 1) = i - n := by omega
      have hlt : 1 + i < n + 1 ↔ i < n := by omega
      by_cases hi15 : 1 + i < 16
      · simp [hi, hi15, hsub, hlt]
      · have hbeyond : x.getLsbD (8 + (i - n)) = false := BitVec.getLsbD_of_ge x _ (by omega)
        simp [hi15, hbeyond]
    rw [applyN, hstep, applyN_crc16rBit_shiftLeft x n (by omega)]

/-- A 16-bit value is its high byte and its low byte. -/
theorem word_eq_high_xor_low (x : Word16) : x = ((x >>> 8) <<< 8) ^^^ (x.extractLsb' 0 8).zeroExtend 16 := by
  apply BitVec.eq_of_getLsbD_eq
  intro i hi
  by_cases h8 : i < 8
  · simp [hi, h8]
  · have hi8 : 8 + (i - 8) = i := by omega
    simp [hi, h8, hi8]

/-- The table form (R111 (c)): the high byte of the register only moves down, and only the low byte meets the byte fed. -/
theorem crc16rUpdate_table (c : Word16) (b : Byte) :
    crc16rUpdate c b = (c >>> 8) ^^^ crc16rUpdate 0#16 ((c ^^^ b.zeroExtend 16).extractLsb' 0 8) := by
  have hhigh : (c ^^^ b.zeroExtend 16) >>> 8 = c >>> 8 := by
    apply BitVec.eq_of_getLsbD_eq
    intro i _
    simp
  calc crc16rUpdate c b
      = applyN crc16rBit 8 (((c ^^^ b.zeroExtend 16) >>> 8) <<< 8 ^^^
          ((c ^^^ b.zeroExtend 16).extractLsb' 0 8).zeroExtend 16) := by rw [← word_eq_high_xor_low]; rfl
    _ = (c >>> 8) ^^^ applyN crc16rBit 8 (((c ^^^ b.zeroExtend 16).extractLsb' 0 8).zeroExtend 16) := by
        rw [applyN_xor crc16rBit_xor, applyN_crc16rBit_shiftLeft _ 8 le_rfl, hhigh]
    _ = (c >>> 8) ^^^ crc16rUpdate 0#16 ((c ^^^ b.zeroExtend 16).extractLsb' 0 8) := by
        rw [crc16rUpdate, BitVec.zero_xor]

/-- Settles O3: linearity and the table form are the lemmas above; an injective map of a finite type is a bijection. -/
theorem crc16rUpdateLaws : Obligations.Crc16rUpdateLaws :=
  ⟨crc16rUpdate_zero, crc16rUpdate_xor, crc16rUpdate_table, by decide,
    fun b => Finite.injective_iff_bijective.mp (crc16rUpdate_injective b)⟩

/-! ### The mirror image -/

theorem reverse_xor {w : Nat} (a b : BitVec w) : (a ^^^ b).reverse = a.reverse ^^^ b.reverse := by
  apply BitVec.eq_of_getLsbD_eq
  intro i _
  simp [BitVec.getLsbD_reverse]

theorem reverse_ushiftRight (t : Word16) (n : Nat) : (t >>> n).reverse = t.reverse <<< n := by
  apply BitVec.eq_of_getLsbD_eq
  intro i hi
  rw [BitVec.getLsbD_reverse, BitVec.getMsbD_eq_getLsbD, BitVec.getLsbD_ushiftRight, BitVec.getLsbD_shiftLeft,
    BitVec.getLsbD_reverse, BitVec.getMsbD_eq_getLsbD]
  by_cases hn : i < n
  · simp [hn, BitVec.getLsbD_of_ge t (n + (16 - 1 - i)) (by omega)]
  · have hsub : n + (16 - 1 - i) = 16 - 1 - (i - n) := by omega
    have hlt : i - n < 16 := by omega
    simp only [hi, hn, hsub, hlt, decide_true, decide_false, Bool.not_false, Bool.true_and]

theorem crc16mBit_eq (t : Word16) : crc16mBit t = (t <<< 1) ^^^ (if t.getLsbD 15 then polyM else 0#16) := by
  unfold crc16mBit
  split_ifs
  · rfl
  · rw [BitVec.xor_zero]

/-- One step mirrored: `POLY_M` is `POLY_R` reversed (R121). -/
theorem crc16mBit_reverse (t : Word16) : crc16mBit t.reverse = (crc16rBit t).reverse := by
  have hbit : t.reverse.getLsbD 15 = t.getLsbD 0 := BitVec.getLsbD_reverse
  have hpoly : (if t.getLsbD 0 then polyR else 0#16).reverse = if t.getLsbD 0 then polyM else 0#16 := by
    cases t.getLsbD 0 <;> decide
  rw [crc16mBit_eq, crc16rBit_eq, reverse_xor, reverse_ushiftRight, hpoly, hbit]

theorem applyN_crc16mBit_reverse : ∀ (n : Nat) (t : Word16), applyN crc16mBit n t.reverse = (applyN crc16rBit n t).reverse
  | 0, _ => rfl
  | n + 1, t => by rw [applyN, crc16mBit_reverse, applyN_crc16mBit_reverse n, applyN]

/-- A reversed byte stands in the high half of the reversed word. -/
theorem reverse_zeroExtend (b : Byte) : (b.zeroExtend 16).reverse = b.reverse.zeroExtend 16 <<< 8 := by
  apply BitVec.eq_of_getLsbD_eq
  intro i hi
  rw [BitVec.getLsbD_reverse, BitVec.getMsbD_eq_getLsbD, BitVec.getLsbD_shiftLeft, BitVec.zeroExtend_eq_setWidth,
    BitVec.zeroExtend_eq_setWidth, BitVec.getLsbD_setWidth, BitVec.getLsbD_setWidth, BitVec.getLsbD_reverse,
    BitVec.getMsbD_eq_getLsbD]
  by_cases h8 : i < 8
  · simp [h8, BitVec.getLsbD_of_ge b (16 - 1 - i) (by omega)]
  · have hsub : 16 - 1 - i = 8 - 1 - (i - 8) := by omega
    have hlt : i - 8 < 8 := by omega
    have hlt16 : 16 - 1 - i < 16 ∧ i - 8 < 16 := by omega
    simp only [hi, h8, hlt, hlt16, ← hsub, decide_true, decide_false, Bool.not_false, Bool.true_and]

theorem crc16mUpdate_reverse (c : Word16) (b : Byte) : crc16mUpdate c.reverse b.reverse = (crc16rUpdate c b).reverse := by
  rw [crc16mUpdate, ← reverse_zeroExtend, ← reverse_xor, applyN_crc16mBit_reverse, crc16rUpdate]

theorem crc16m_map_reverse (s : List Byte) : crc16m (s.map BitVec.reverse) = (crc16r s).reverse := by
  induction s using List.reverseRecOn with
  | nil => decide
  | append_singleton s b ih =>
    rw [List.map_append, List.map_singleton, crc16m_snoc, ih, crc16mUpdate_reverse, crc16r_snoc]

/-- Settles O6: `crc16m_map_reverse`, and the two values by evaluation. -/
theorem crcVariantsAreMirrors : Obligations.CrcVariantsAreMirrors :=
  ⟨fun s => by rw [crc16m_map_reverse, BitVec.reverse_reverse_eq], by decide +kernel, by decide +kernel⟩

/-! ### The MSB-first update -/

/-- `t_n` of R113, the value after `n` shifts; `t_8` is `crc16mUpdate c b` by definition. -/
def crc16mShifts (c : Word16) (b : Byte) (n : Nat) : Word16 := applyN crc16mBit n (c ^^^ (b.zeroExtend 16 <<< 8))

theorem crc16mShifts_succ (c : Word16) (b : Byte) (n : Nat) :
    crc16mShifts c b (n + 1) = if (crc16mShifts c b n).getLsbD 15 = true
      then (crc16mShifts c b n <<< 1) ^^^ 0x8005#16 else crc16mShifts c b n <<< 1 :=
  applyN_succ_apply crc16mBit n _

/-- Settles O2: the values `crc16mShifts c b` are the pseudocode's. -/
theorem crc16mUpdateIsEightLeftShifts : Obligations.Crc16mUpdateIsEightLeftShifts := fun c b =>
  ⟨crc16mShifts c b, rfl, fun n _ => crc16mShifts_succ c b n, rfl⟩

theorem extractLsb'_zeroExtend (b : Byte) : (b.zeroExtend 16).extractLsb' 0 8 = b := by
  apply BitVec.eq_of_getLsbD_eq
  intro i hi
  have h16 : i < 16 := by omega
  simp [hi, h16]

/-- The mirrored low byte is the high byte. -/
theorem reverse_extractLsb'_low (x : Word16) : (x.reverse.extractLsb' 0 8).reverse = x.extractLsb' 8 8 := by
  apply BitVec.eq_of_getLsbD_eq
  intro i hi
  have hlt : 8 - 1 - i < 8 ∧ 8 - 1 - i < 16 := by omega
  have hsub : 16 - 1 - (8 - 1 - i) = 8 + i := by omega
  simp only [BitVec.getLsbD_reverse, BitVec.getMsbD_eq_getLsbD, BitVec.getLsbD_extractLsb', Nat.zero_add, hi, hlt, hsub,
    decide_true, Bool.true_and]

/-- The mirror image of `crc16rUpdate_table`. -/
theorem crc16mUpdate_table (c : Word16) (b : Byte) :
    crc16mUpdate c b = (c <<< 8) ^^^ crc16mUpdate 0#16 (c.extractLsb' 8 8 ^^^ b) := by
  have hbyte : ((c.reverse ^^^ b.reverse.zeroExtend 16).extractLsb' 0 8).reverse = c.extractLsb' 8 8 ^^^ b := by
    rw [BitVec.extractLsb'_xor, reverse_xor, reverse_extractLsb'_low, extractLsb'_zeroExtend, BitVec.reverse_reverse_eq]
  calc crc16mUpdate c b
      = (crc16rUpdate c.reverse b.reverse).reverse := by
        rw [← crc16mUpdate_reverse, BitVec.reverse_reverse_eq, BitVec.reverse_reverse_eq]
    _ = (c <<< 8) ^^^ (crc16rUpdate 0#16 ((c.reverse ^^^ b.reverse.zeroExtend 16).extractLsb' 0 8)).reverse := by
        rw [crc16rUpdate_table, reverse_xor, reverse_ushiftRight, BitVec.reverse_reverse_eq]
    _ = (c <<< 8) ^^^ crc16mUpdate 0#16 (c.extractLsb' 8 8 ^^^ b) := by
        rw [← crc16mUpdate_reverse, hbyte]
        rfl

/-- Settles O10: `exec_crcUpdm` and the table form. -/
theorem crcUpdmUpdatesCrcmAlone : Obligations.CrcUpdmUpdatesCrcmAlone := fun b s => by
  rw [exec_crcUpdm, crc16mUpdate_table]
  rfl

/-! ### The residue of a message -/

/-- Fed its own low byte the register moves down. -/
theorem crc16rUpdate_lowByte (c : Word16) : crc16rUpdate c (lowByte c) = c >>> 8 := by
  have hlow : (c ^^^ (lowByte c).zeroExtend 16).extractLsb' 0 8 = 0#8 := by
    rw [BitVec.extractLsb'_xor, extractLsb'_zeroExtend, lowByte, BitVec.xor_self]
  rw [crc16rUpdate_table, hlow, crc16rUpdate_zero, BitVec.xor_zero]

theorem highByte_eq_lowByte (c : Word16) : highByte c = lowByte (c >>> 8) := by
  apply BitVec.eq_of_getLsbD_eq
  intro i _
  simp [highByte, lowByte]

theorem crc16r_append_self (s : List Byte) : crc16r (s ++ [lowByte (crc16r s), highByte (crc16r s)]) = 0#16 := by
  have hgone : crc16r s >>> 8 >>> 8 = 0#16 := by
    apply BitVec.eq_of_getLsbD_eq
    intro i _
    simp
  calc crc16r (s ++ [lowByte (crc16r s), highByte (crc16r s)])
      = crc16rUpdate (crc16rUpdate (crc16r s) (lowByte (crc16r s))) (highByte (crc16r s)) := crc16r_append _ _
    _ = 0#16 := by rw [crc16rUpdate_lowByte, highByte_eq_lowByte, crc16rUpdate_lowByte, hgone]

theorem reverse_lowByte_reverse (c : Word16) : (lowByte c.reverse).reverse = highByte c := reverse_extractLsb'_low c

theorem reverse_highByte_reverse (c : Word16) : (highByte c.reverse).reverse = lowByte c := by
  rw [← reverse_lowByte_reverse, BitVec.reverse_reverse_eq, BitVec.reverse_reverse_eq]

theorem map_reverse_reverse (s : List Byte) : (s.map BitVec.reverse).map BitVec.reverse = s := by
  simp [Function.comp_def, BitVec.reverse_reverse_eq]

theorem crc16r_map_reverse (s : List Byte) : crc16r (s.map BitVec.reverse) = (crc16m s).reverse := by
  rw [← BitVec.reverse_reverse_eq (x := crc16r _), ← crc16m_map_reverse, map_reverse_reverse]

/-- The mirror image of `crc16r_append_self`. -/
theorem crc16m_append_self (s : List Byte) : crc16m (s ++ [highByte (crc16m s), lowByte (crc16m s)]) = 0#16 := by
  have hmirror : s ++ [highByte (crc16m s), lowByte (crc16m s)] = (s.map BitVec.reverse ++
      [lowByte (crc16r (s.map BitVec.reverse)), highByte (crc16r (s.map BitVec.reverse))]).map BitVec.reverse := by
    rw [List.map_append, map_reverse_reverse, crc16r_map_reverse, List.map_cons, List.map_singleton, reverse_lowByte_reverse,
      reverse_highByte_reverse]
  rw [hmirror, crc16m_map_reverse, crc16r_append_self]
  rfl

/-- Settles O4: the register fed its own two bytes is shifted out. -/
theorem appendedCrcLeavesZero : Obligations.AppendedCrcLeavesZero := ⟨crc16r_append_self, crc16m_append_self⟩

/-! ### One bit turned over -/

theorem foldl_crc16rUpdate_injective : ∀ t : List Byte, Function.Injective fun c => t.foldl crc16rUpdate c
  | [] => Function.injective_id
  | b :: t => (foldl_crc16rUpdate_injective t).comp (crc16rUpdate_injective b)

/-- The update separates two bytes, and the bytes after them keep their CRCs apart. -/
theorem crc16r_append_cons_ne (front back : List Byte) {a b : Byte} (h : a ≠ b) :
    crc16r (front ++ a :: back) ≠ crc16r (front ++ b :: back) := by
  rw [crc16r_append, crc16r_append, List.foldl_cons, List.foldl_cons]
  exact (foldl_crc16rUpdate_injective back).ne ((crc16rUpdate_byte_injective _).ne h)

theorem crc16r_set_ne {s : List Byte} {i : Nat} (hi : i < s.length) {x : Byte} (hx : x ≠ s[i]) :
    crc16r (s.set i x) ≠ crc16r s := by
  have hne := crc16r_append_cons_ne (s.take i) (s.drop (i + 1)) hx
  rw [List.getElem_cons_drop, List.take_append_drop] at hne
  rwa [List.set_eq_take_append_cons_drop, if_pos hi]

theorem one_shiftLeft_ne_zero {j : Nat} (hj : j < 8) : 1#8 <<< j ≠ 0#8 := by
  revert j
  decide

theorem flipBit_byte_ne {s : List Byte} {k : Nat} (hk : k / 8 < s.length) :
    s.getD (k / 8) 0#8 ^^^ (1#8 <<< (k % 8)) ≠ s[k / 8] := by
  rw [List.getD_eq_getElem _ _ hk]
  intro h
  exact one_shiftLeft_ne_zero (Nat.mod_lt k (by decide)) (by simpa using h)

theorem crc16r_flipBit_ne {s : List Byte} {k : Nat} (hk : k / 8 < s.length) : crc16r (flipBit s k) ≠ crc16r s :=
  crc16r_set_ne hk (flipBit_byte_ne hk)

/-- Settles O5: `crc16r_flipBit_ne` for the 18 bytes. -/
theorem singleBitFlipChangesCrc : Obligations.SingleBitFlipChangesCrc := fun s hs k hk => crc16r_flipBit_ne (by omega)

/-! ### The checksum of a frame -/

theorem le16_injective {a b c d : Byte} (h : le16 a b = le16 c d) : a = c ∧ b = d :=
  ⟨by rw [← lowByte_le16 a b, h, lowByte_le16], by rw [← highByte_le16 a b, h, highByte_le16]⟩

/-- Of 18 content bytes, two checksum bytes and what follows them the verdict reads the first two parts (R160). -/
theorem validate_content_append {m : List Byte} (hm : m.length = 18) (lo hi : Byte) (d : List Byte) :
    validate (m ++ [lo, hi] ++ d) = (crc16r m == le16 lo hi) := by
  have htake : (m ++ ([lo, hi] ++ d)).take contentLen = m := List.take_left' hm
  have hlo : (m ++ ([lo, hi] ++ d)).getD 18 0#8 = lo := by
    rw [List.getD_append_right _ _ _ _ hm.le, hm]
    rfl
  have hhi : (m ++ ([lo, hi] ++ d)).getD 19 0#8 = hi := by
    rw [List.getD_append_right _ _ _ _ (by omega), hm]
    rfl
  rw [List.append_assoc, validate, htake, hlo, hhi]

theorem length_flipBit (s : List Byte) (k : Nat) : (flipBit s k).length = s.length := List.length_set

/-- A bit of one of two bytes turned over gives another pair. -/
theorem flipBit_pair (lo hi : Byte) {k : Nat} (hk : k < 16) :
    ∃ lo' hi', flipBit [lo, hi] k = [lo', hi'] ∧ (lo', hi') ≠ (lo, hi) := by
  have hbyte : k / 8 < [lo, hi].length := by simp; omega
  have hne := flipBit_byte_ne hbyte
  obtain h | h : k / 8 = 0 ∨ k / 8 = 1 := by omega
  · refine ⟨_, _, by rw [flipBit, h]; rfl, ?_⟩
    simp only [h] at hne
    exact fun heq => hne (Prod.mk.inj heq).1
  · refine ⟨_, _, by rw [flipBit, h]; rfl, ?_⟩
    simp only [h] at hne
    exact fun heq => hne (Prod.mk.inj heq).2

/-- Settles O31: the verdict compares the content's CRC with the two bytes, and a flip changes one of the two and not the
other. -/
theorem embeddedCrcPassesAndFlipsFail : Obligations.EmbeddedCrcPassesAndFlipsFail := by
  intro m d hm _
  refine ⟨?_, fun k hk => ?_, fun k hk => ?_⟩
  · rw [validate_content_append hm, le16_lowByte_highByte, beq_self_eq_true]
  · rw [validate_content_append ((length_flipBit m k).trans hm), le16_lowByte_highByte, beq_eq_false_iff_ne]
    exact crc16r_flipBit_ne (by omega)
  · obtain ⟨lo, hi, hflip, hne⟩ := flipBit_pair (lowByte (crc16r m)) (highByte (crc16r m)) hk
    rw [hflip, validate_content_append hm, beq_eq_false_iff_ne]
    intro hcrc
    obtain ⟨hlo, hhi⟩ := le16_injective ((le16_lowByte_highByte (crc16r m)).trans hcrc)
    exact hne (Prod.ext hlo.symm hhi.symm)

/-! ### The zero seed -/

theorem crc16r_replicate_zero (n : Nat) : crc16r (List.replicate n 0#8) = 0#16 := by
  induction n with
  | zero => rfl
  | succ n ih => rw [List.replicate_succ', crc16r_snoc, ih, crc16rUpdate_zero]

theorem getD_replicate_append {n i : Nat} (hi : i < n) (b c : Byte) (d : List Byte) :
    (List.replicate n b ++ d).getD i c = b := by
  rw [List.getD_append _ _ _ _ (by simpa using hi), List.getD_replicate _ hi]

/-- Settles O7: zeros leave the seed as it is, so the content of zeros has the CRC 0, which its checksum word is. -/
theorem leadingZerosAreInvisible : Obligations.LeadingZerosAreInvisible := by
  refine ⟨fun n s => ?_, fun d hd => ?_⟩
  · rw [crc16r_append, crc16r_replicate_zero]
    rfl
  · have hlen : (List.replicate 20 0#8 ++ d).length = 24 := by simp [hd]
    have hcontent : crc16r (wireContent (List.replicate 20 0#8 ++ d)) = 0#16 := crc16r_replicate_zero 18
    have hword : ∀ k, k < 10 → wireWord (List.replicate 20 0#8 ++ d) k = 0#16 := fun k hk => by
      rw [wireWord, getD_replicate_append (by omega), getD_replicate_append (by omega)]
      rfl
    rw [receiveFrame_of_length hlen, hcontent, hword 9 (by decide), if_pos rfl]
    simp (disch := decide) only [wireFrame, hword, BitVec.ofNat_eq_ofNat]

/-! ### The CRC unit over a message -/

theorem execAll_crcUpds : ∀ (n : List Byte) (s : State),
    execAll (n.map .crcUpd) s = .next (s.setCrcr (n.foldl crc16rUpdate s.crcr))
  | [], _ => rfl
  | b :: n, s => by
    rw [List.map_cons, execAll_cons_next s (exec_crcUpd s b), execAll_crcUpds n]
    rfl

theorem execAll_crcUpdms : ∀ (n : List Byte) (s : State),
    execAll (n.map .crcUpdm) s = .next (s.setCrcm (n.foldl crc16mUpdate s.crcm))
  | [], _ => rfl
  | b :: n, s => by
    rw [List.map_cons, execAll_cons_next s (exec_crcUpdm s b), execAll_crcUpdms n]
    rfl

/-- Settles O11: `CRC.INIT` seeds both registers, and the updates fold one of them over the message. -/
theorem crcMessageLeavesItsCrc : Obligations.CrcMessageLeavesItsCrc := by
  refine fun m s => ⟨⟨_, rfl, ?_⟩, ⟨_, rfl, ?_⟩⟩
  · rw [execAll_cons_next s (exec_crcInit s), execAll_crcUpds]
    rfl
  · rw [execAll_cons_next s (exec_crcInit s), execAll_crcUpdms]
    rfl

/-- Settles O12: the fold goes on from the register. -/
theorem updatesWithoutInitContinueTheMessage : Obligations.UpdatesWithoutInitContinueTheMessage := by
  refine fun m n s => ⟨fun hcrc => ?_, fun hcrc => ?_⟩
  · rw [execAll_crcUpds, crc16r_append, ← hcrc]
    rfl
  · rw [execAll_crcUpdms, crc16m_append, ← hcrc]
    rfl

/-! ### Command frames -/

/-- The receiver's check on a command frame is on its opcode and the number of its parameters alone (R187, R191). -/
theorem acceptsCommand_commandFrame (p : Params) (op : Byte) (pars : List Byte) :
    acceptsCommand p (commandFrame p (op :: pars)) =
      ((op == motorOpcode && pars.length == 1) || (op == p.pixelOpcode && pars.length == 6)) := by
  simp [acceptsCommand, commandFrame, Header.bytes]

/-- The checksum of a command frame stands in bytes 4 and 5, its content from byte 6 on (R84). -/
theorem crc16r_drop_commandFrame (p : Params) (content : List Byte) :
    let f := commandFrame p content
    crc16r (f.drop 6) = le16 (f.getD 4 0#8) (f.getD 5 0#8) ∧
      crc16r (f.drop 6 ++ [f.getD 4 0#8, f.getD 5 0#8]) = 0x0000#16 :=
  ⟨(le16_lowByte_highByte _).symm, crc16r_append_self content⟩

/-- Settles O36: both kinds of frame are command frames with an opcode and as many parameters as the check asks for. -/
theorem emittedFramesValidateThemselves : Obligations.EmittedFramesValidateThemselves := by
  rintro p f (⟨sel, -, rfl⟩ | ⟨a, b, c, d, e, g, rfl⟩)
  · exact ⟨by simp [motorFrame, acceptsCommand_commandFrame], crc16r_drop_commandFrame p _⟩
  · exact ⟨by simp [pixelFrame, acceptsCommand_commandFrame], crc16r_drop_commandFrame p _⟩

end Sys2Proof.Machine
end

section
/-!
Streams of received bytes (R131 to R143, R240 to R248): what the synchronizer holds after a stream in which nothing matched,
the event of the byte that completes the delimiter, and how the operations over a stream are put together.
-/

namespace Sys2Proof.Machine

/-! ### The accumulator over a stream -/

theorem accAfter_concat (a : Word32) (bs : List Byte) (b : Byte) :
    accAfter a (bs ++ [b]) = (accAfter a bs <<< 8) ||| b.zeroExtend 32 := List.foldl_append

theorem accByte_zero (j : Nat) : accByte 0#32 j = 0#8 := by simp [accByte]

/-- A word is its four bytes. -/
theorem eq_of_accByte_eq {a b : Word32} (h : ∀ j, j < 4 → accByte a j = accByte b j) : a = b := by
  apply BitVec.eq_of_getLsbD_eq
  intro i hi
  have hbit := congrArg (·.getLsbD (i % 8)) (h (i / 8) (by omega))
  have hlt : i % 8 < 8 := Nat.mod_lt i (by decide)
  simpa only [accByte, BitVec.getLsbD_extractLsb', hlt, decide_true, Bool.true_and, Nat.div_add_mod] using hbit

/-- The newest bytes of the stream stand in the accumulator, and above them what it held before (R33). -/
theorem accByte_accAfter (a : Word32) (bs : List Byte) : ∀ j, j < 4 →
    accByte (accAfter a bs) j = if j < bs.length then bs.getD (bs.length - 1 - j) 0#8 else accByte a (j - bs.length) := by
  induction bs using List.reverseRecOn with
  | nil => exact fun _ _ => rfl
  | append_singleton bs b ih =>
    intro j hj
    rw [accAfter_concat, List.length_append, List.length_singleton]
    cases j with
    | zero => simp [accByte_shiftIn_zero]
    | succ j =>
      rw [accByte_shiftIn_succ _ _ (by omega), ih j (by omega)]
      by_cases hlt : j < bs.length
      · have hidx : bs.length + 1 - 1 - (j + 1) = bs.length - 1 - j := by omega
        rw [if_pos hlt, if_pos (by omega), hidx, List.getD_append _ _ _ _ (by omega)]
      · rw [if_neg hlt, if_neg (by omega), Nat.add_sub_add_right]

/-- After four bytes nothing of what came before is left. -/
theorem accAfter_of_four_le {bs cs : List Byte} (hcs : cs.length = 4) (a : Word32) :
    accAfter a (bs ++ cs) = accAfter 0#32 cs := by
  refine eq_of_accByte_eq fun j hj => ?_
  have hidx : (bs ++ cs).length - 1 - j = bs.length + (cs.length - 1 - j) := by rw [List.length_append]; omega
  rw [accByte_accAfter _ _ j hj, accByte_accAfter _ _ j hj, if_pos (by rw [List.length_append]; omega), if_pos (by omega), hidx,
    List.getD_append_right _ _ _ _ (Nat.le_add_right _ _), Nat.add_sub_cancel_left]

theorem accByte_delim (p : Params) : ∀ j, j < 4 → accByte p.delim j = p.delimBytes.getD (3 - j) 0#8
  | 0, _ | 1, _ | 2, _ | 3, _ => rfl
  | _ + 4, h => absurd h (by omega)

@[simp] theorem length_delimBytes (p : Params) : p.delimBytes.length = 4 := rfl

theorem accAfter_delimBytes (p : Params) : accAfter 0#32 p.delimBytes = p.delim :=
  eq_of_accByte_eq fun j hj => by
    rw [accByte_accAfter _ _ j hj, if_pos (by simpa using hj), length_delimBytes, accByte_delim p j hj]

/-! ### The registers over a stream -/

/-- The registers after the bytes `bs` none of which matched (R131, R135). -/
def Syn.shiftAll (y : Syn) (bs : List Byte) : Syn := bs.foldl (fun y b => y.shiftIn b) y

theorem Syn.shiftAll_concat (y : Syn) (bs : List Byte) (b : Byte) : y.shiftAll (bs ++ [b]) = (y.shiftAll bs).shiftIn b :=
  List.foldl_append

theorem Syn.shiftAll_acc : ∀ (bs : List Byte) (y : Syn), (y.shiftAll bs).acc = accAfter y.acc bs
  | [], _ => rfl
  | b :: bs, y => Syn.shiftAll_acc bs (y.shiftIn b)

theorem Syn.empty_shiftAll_idx (bs : List Byte) : (Syn.empty.shiftAll bs).idx.toNat = bs.length % 24 := by
  induction bs using List.reverseRecOn with
  | nil => rfl
  | append_singleton bs b ih =>
    rw [Syn.shiftAll_concat, Syn.shiftIn_idx, ih, List.length_append, List.length_singleton]
    omega

theorem Syn.empty_shiftAll_cnt (bs : List Byte) : (Syn.empty.shiftAll bs).cnt.toNat = min bs.length 24 := by
  induction bs using List.reverseRecOn with
  | nil => rfl
  | append_singleton bs b ih =>
    rw [Syn.shiftAll_concat, Syn.shiftIn_cnt, ih, List.length_append, List.length_singleton]
    omega

theorem Syn.empty_shiftAll_buf_wf (bs : List Byte) : (Syn.empty.shiftAll bs).buf.wf = true := by
  induction bs using List.reverseRecOn with
  | nil => rfl
  | append_singleton bs b ih =>
    rw [Syn.shiftAll_concat]
    exact Memory.wf_write ih _ b

/-- The last 24 bytes stand in `BUF`, byte `i` of the stream at index `i` modulo 24. -/
theorem Syn.empty_shiftAll_read (bs : List Byte) : ∀ i, i < bs.length → bs.length ≤ i + 24 →
    (Syn.empty.shiftAll bs).buf.read i = bs.getD i 0#8 := by
  induction bs using List.reverseRecOn with
  | nil => exact fun i hi => absurd hi (Nat.not_lt_zero i)
  | append_singleton bs b ih =>
    intro i hi hlast
    rw [List.length_append, List.length_singleton] at hi hlast
    rw [Syn.shiftAll_concat, Syn.shiftIn_buf, Syn.empty_shiftAll_idx,
      Memory.read_write (Syn.empty_shiftAll_buf_wf bs), Nat.mod_mod]
    by_cases heq : i = bs.length
    · rw [heq, if_pos rfl, List.getD_append_right _ _ _ _ le_rfl, Nat.sub_self]
      rfl
    · rw [if_neg (by omega), ih i (by omega) (by omega), List.getD_append _ _ _ _ (by omega)]

/-- The window is the last 24 bytes of the stream (R141). -/
theorem Syn.window_empty_shiftAll {noise w : List Byte} (hw : w.length = 24) :
    (Syn.empty.shiftAll (noise ++ w)).window = w := by
  have hlen : (noise ++ w).length = noise.length + 24 := by rw [List.length_append, hw]
  refine List.ext_getElem (by rw [Syn.length_window, hw]) fun i hi hi' => ?_
  have hmod : ((noise ++ w).length % 24 + i) % 24 = (noise.length + i) % 24 := by omega
  rw [Syn.window_getElem, Syn.empty_shiftAll_idx, ← Memory.read_mod, hmod, Memory.read_mod,
    Syn.empty_shiftAll_read _ _ (by omega) (by omega), List.getD_append_right _ _ _ _ (Nat.le_add_right _ _), Nat.add_sub_cancel_left, List.getD_eq_getElem]

theorem Syn.matchEvent_empty_shiftAll_full {noise w : List Byte} (hw : w.length = 24) :
    (Syn.empty.shiftAll (noise ++ w)).matchEvent =
      if crc16r (wireContent w) = wireWord w 9 then .frameOk (wireFrame w) else .invalidFrame w := by
  have hfull : (Syn.empty.shiftAll (noise ++ w)).cnt.toNat = 24 := by
    rw [Syn.empty_shiftAll_cnt, List.length_append]
    omega
  rw [Syn.matchEvent_full hfull, Syn.window_empty_shiftAll hw, receiveFrame_of_length hw]

theorem Syn.matchEvent_empty_shiftAll_short {bs : List Byte} (hbs : bs.length < 24) :
    (Syn.empty.shiftAll bs).matchEvent = .shortMatch (BitVec.ofNat 5 bs.length) := by
  have hcnt : (Syn.empty.shiftAll bs).cnt.toNat = bs.length := by rw [Syn.empty_shiftAll_cnt]; omega
  have hofNat : (Syn.empty.shiftAll bs).cnt = BitVec.ofNat 5 bs.length := by rw [← hcnt, BitVec.ofNat_toNat, BitVec.setWidth_eq]
  rw [Syn.matchEvent_short (by omega), hofNat]

/-! ### The machine over a stream -/

/-- A stream no byte of which completes the delimiter is shifted in and raises nothing (R135). -/
theorem State.rxChunk_noMatch {p : Params} : ∀ (bs : List Byte) (s : State),
    (∀ k, 0 < k → k ≤ bs.length → accAfter s.syn.acc (bs.take k) ≠ p.delim) →
    s.rxChunk p bs = s.setSyn (s.syn.shiftAll bs)
  | [], _, _ => rfl
  | b :: bs, s, h => by
    have hfirst : (s.syn.shiftIn b).acc ≠ p.delim := h 1 Nat.one_pos (by simp)
    rw [State.rxChunk_cons, State.rxByte_noMatch hfirst, State.rxChunk_noMatch bs _ fun k hk hlen =>
      h (k + 1) (Nat.succ_pos k) (Nat.succ_le_succ hlen)]
    rfl

theorem State.setSyn_setSyn (y z : Syn) (s : State) : (s.setSyn y).setSyn z = s.setSyn z := rfl

theorem State.setSyn_self (s : State) : s.setSyn s.syn = s := rfl

/-- The first match of a stream received from the empty synchronizer, at its last byte: one event, and the synchronizer
empty again. -/
theorem State.rxChunk_match {p : Params} {bs : List Byte} {s : State} (hs : s.syn = Syn.empty) (hne : bs ≠ [])
    (hearly : NoEarlyMatch p bs) (hmatch : accAfter 0#32 bs = p.delim) :
    s.rxChunk p bs = s.raise (Syn.empty.shiftAll bs).matchEvent := by
  obtain rfl | ⟨front, b, rfl⟩ := bs.eq_nil_or_concat'
  · exact absurd rfl hne
  · have hfront : s.rxChunk p front = s.setSyn (Syn.empty.shiftAll front) := by
      rw [State.rxChunk_noMatch front s, hs]
      intro k hk hlen
      rw [hs, ← List.take_append_of_le_length (l₂ := [b]) hlen]
      exact hearly k hk (by rw [List.length_append, List.length_singleton]; omega)
    have hlast : ((s.setSyn (Syn.empty.shiftAll front)).syn.shiftIn b).acc = p.delim := by
      rw [State.setSyn_syn, ← Syn.shiftAll_concat, Syn.shiftAll_acc]
      exact hmatch
    rw [State.rxChunk_append, hfront, State.rxChunk_cons, State.rxChunk_nil, State.rxByte_match hlast, State.setSyn_syn,
      ← Syn.shiftAll_concat, State.setSyn_setSyn, ← hs, State.setSyn_self]

/-- Fewer than 24 bytes up to the first match are a short match (R142). -/
theorem State.rxChunk_shortMatch {p : Params} {bs : List Byte} {s : State} (hs : s.syn = Syn.empty) (hne : bs ≠ [])
    (hlen : bs.length < 24) (hearly : NoEarlyMatch p bs) (hmatch : accAfter 0#32 bs = p.delim) :
    s.rxChunk p bs = { s with evPending := s.evPending ++ [.shortMatch (BitVec.ofNat 5 bs.length)] } := by
  rw [State.rxChunk_match hs hne hearly hmatch, Syn.matchEvent_empty_shiftAll_short hlen]
  rfl

theorem eq_append_of_endsInDelim {p : Params} {w : List Byte} (h : endsInDelim p w = true) :
    w = w.take 20 ++ p.delimBytes := by
  have hdrop : w.drop 20 = p.delimBytes := by simpa [endsInDelim] using h
  rw [← hdrop, List.take_append_drop]

/-- Settles O22: the last byte is the first match, and the window is the last 24 bytes. -/
theorem noiseThenFrameYieldsTheFrame : Obligations.NoiseThenFrameYieldsTheFrame := by
  intro p noise w s hs hw hdelim hearly
  have hne : noise ++ w ≠ [] := List.ne_nil_of_length_pos (by rw [List.length_append]; omega)
  have hmatch : accAfter 0#32 (noise ++ w) = p.delim := by
    rw [eq_append_of_endsInDelim hdelim, ← List.append_assoc, accAfter_of_four_le (length_delimBytes p), accAfter_delimBytes]
  rw [State.rxChunk_match hs hne hearly hmatch, Syn.matchEvent_empty_shiftAll_full hw]
  rfl

/-- Settles O21, frame by frame: each is a frame without noise, and leaves the synchronizer empty for the next. -/
theorem backToBackFramesAreReceived : Obligations.BackToBackFramesAreReceived := by
  intro p frames
  induction frames with
  | nil => intro s _ _; simp
  | cons w frames ih =>
    intro s hs hframes
    obtain ⟨⟨hw, hdelim, hearly, hcrc⟩, hrest⟩ := List.forall_mem_cons.mp hframes
    have hfirst : s.rxChunk p w = s.raise (.frameOk (wireFrame w)) := by
      have h := noiseThenFrameYieldsTheFrame p [] w s hs hw hdelim hearly
      rwa [List.nil_append, if_pos hcrc] at h
    rw [List.flatten_cons, State.rxChunk_append, hfirst, ih (s.raise _) hs hrest]
    simp [State.raise]

/-- Settles O23: the delimiter completes the first match, before the 24th byte. -/
theorem earlyDelimiterCostsTheFrame : Obligations.EarlyDelimiterCostsTheFrame := by
  intro p pre s hs hlen hearly
  have hlength : (pre ++ p.delimBytes).length = pre.length + 4 := by rw [List.length_append, length_delimBytes]
  have hne : pre ++ p.delimBytes ≠ [] := List.ne_nil_of_length_pos (by omega)
  have hmatch : accAfter 0#32 (pre ++ p.delimBytes) = p.delim := by
    rw [accAfter_of_four_le (length_delimBytes p), accAfter_delimBytes]
  rw [State.rxChunk_shortMatch hs hne (by omega) hearly hmatch, hlength]

section ZeroFirst

variable {p : Params} {m : Nat} (hm : m < 4) (hzero : ∀ i, i < m → p.delimBytes.getD i 0#8 = 0#8)
include hm

/-- Fewer bytes than those after the zeros leave the place of the first byte that is not 0 at 0. -/
theorem noEarlyMatch_drop_delimBytes (hm0 : p.delimBytes.getD m 0#8 ≠ 0#8) : NoEarlyMatch p (p.delimBytes.drop m) := by
  intro k _ hk hacc
  rw [List.length_drop, length_delimBytes] at hk
  have hbyte := accByte_accAfter 0#32 ((p.delimBytes.drop m).take k) (3 - m) (by omega)
  have hidx : 3 - (3 - m) = m := by omega
  rw [hacc, accByte_delim p _ (by omega), hidx, if_neg (by rw [List.length_take]; omega), accByte_zero] at hbyte
  exact hm0 hbyte

include hzero

/-- The zero bytes a delimiter starts with are in the empty accumulator already (R242). -/
theorem accAfter_drop_delimBytes : accAfter 0#32 (p.delimBytes.drop m) = p.delim := by
  refine eq_of_accByte_eq fun j hj => ?_
  rw [accByte_accAfter _ _ j hj, accByte_delim p j hj, List.length_drop, length_delimBytes, accByte_zero]
  by_cases hlt : j < 4 - m
  · have hidx : m + (4 - m - 1 - j) = 3 - j := by omega
    rw [if_pos hlt, List.getD_eq_getElem?_getD, List.getElem?_drop, hidx, ← List.getD_eq_getElem?_getD]
  · rw [if_neg hlt, hzero _ (by omega)]

/-- The bytes after the zeros match at once. -/
theorem State.rxChunk_drop_delimBytes (hm0 : p.delimBytes.getD m 0#8 ≠ 0#8) {s : State} (hs : s.syn = Syn.empty) :
    s.rxChunk p (p.delimBytes.drop m) = { s with evPending := s.evPending ++ [.shortMatch (BitVec.ofNat 5 (4 - m))] } := by
  have hlen : (p.delimBytes.drop m).length = 4 - m := by rw [List.length_drop, length_delimBytes]
  rw [State.rxChunk_shortMatch hs (List.ne_nil_of_length_pos (by omega)) (by omega) (noEarlyMatch_drop_delimBytes hm hm0)
    (accAfter_drop_delimBytes hm hzero), hlen]

end ZeroFirst

/-- Settles O24: one zero first, two zeros first, and the delimiter 0, which its first byte completes. -/
theorem zeroFirstDelimiterMatchesEarly : Obligations.ZeroFirstDelimiterMatchesEarly := by
  intro p s hs
  refine ⟨fun h0 h1 => ?_, fun h0 h1 h2 => ?_, fun hdelim => ?_⟩
  · refine State.rxChunk_drop_delimBytes (by decide) (fun i hi => ?_) h1 hs
    obtain rfl : i = 0 := by omega
    exact h0
  · refine State.rxChunk_drop_delimBytes (by decide) (fun i hi => ?_) h2 hs
    obtain rfl | rfl : i = 0 ∨ i = 1 := by omega
    · exact h0
    · exact h1
  · refine State.rxChunk_shortMatch hs (List.cons_ne_nil _ _) (by decide) (fun k hk hlen => ?_) (by rw [hdelim]; decide)
    rw [List.length_singleton] at hlen
    omega

/-! ### A stream of one byte value -/

theorem accAfter_replicate (b : Byte) (n : Nat) :
    accAfter 0#32 (List.replicate n b) = accAfter 0#32 (List.replicate (min n 4) b) := by
  by_cases hn : n ≤ 4
  · rw [min_eq_left hn]
  · have hsplit : List.replicate n b = List.replicate (n - 4) b ++ List.replicate 4 b := by
      rw [List.replicate_append_replicate, Nat.sub_add_cancel (by omega)]
    rw [min_eq_right (by omega), hsplit, accAfter_of_four_le List.length_replicate]

theorem Syn.empty_shiftAll_replicate_read (b : Byte) (n : Nat) : ∀ i, i < 24 →
    (Syn.empty.shiftAll (List.replicate n b)).buf.read i = if i < n then b else 0#8 := by
  induction n with
  | zero => exact fun _ _ => rfl
  | succ n ih =>
    intro i hi
    rw [List.replicate_succ', Syn.shiftAll_concat, Syn.shiftIn_buf, Syn.empty_shiftAll_idx, List.length_replicate,
      Memory.read_write (Syn.empty_shiftAll_buf_wf _), Nat.mod_mod, ih i hi]
    by_cases heq : i % 24 = n % 24
    · rw [if_pos heq, if_pos (by omega)]
    · have hlt : i < n + 1 ↔ i < n := by omega
      rw [if_neg heq]
      simp only [hlt]

/-- Settles O18: no number of the bytes matches (`accAfter_replicate`), so they are shifted in. -/
theorem constantStreamRaisesNothing : Obligations.ConstantStreamRaisesNothing := by
  intro p b n hnone
  refine ⟨Syn.empty.shiftAll (List.replicate n b), ?_, ?_, ?_, ?_, Syn.empty_shiftAll_replicate_read b n⟩
  · refine State.rxChunk_noMatch _ State.reset fun k hk hlen => ?_
    rw [List.length_replicate] at hlen
    rw [List.take_replicate, min_eq_left hlen]
    exact fun hacc => hnone (min k 4) (by omega) (by omega) ((accAfter_replicate b k).symm.trans hacc)
  · rw [Syn.shiftAll_acc]
    exact accAfter_replicate b n
  · rw [Syn.empty_shiftAll_idx, List.length_replicate]
  · rw [Syn.empty_shiftAll_cnt, List.length_replicate]

/-! ### The operations over a stream -/

/-- `RX.CHUNK s` is the bytes of `s`, and of none of them nothing (R103). -/
theorem execAll_chunkOps (bs : List Byte) (s : State) : execAll (chunkOps bs) s = .next (s.rxChunk Config.params bs) := by
  cases bs with
  | nil => rfl
  | cons b bs => exact execAll_rxBytes (b :: bs) s

/-- Settles O19: chunk after chunk the bytes of the whole stream are received. -/
theorem chunkingIsTransparent : Obligations.ChunkingIsTransparent := by
  intro chunks
  induction chunks with
  | nil => exact fun _ => rfl
  | cons c chunks ih =>
    intro s
    rw [List.flatMap_cons, execAll_append_next (execAll_chunkOps c s), ih, execAll_chunkOps, execAll_chunkOps, List.flatten_cons,
      State.rxChunk_append]

/-- Settles O20: the row's meaning is `rxChunk`, as are the bytes one after the other. -/
theorem telemetryRowFeedsItsBytes : Obligations.TelemetryRowFeedsItsBytes := by
  refine fun w s => ⟨fun hw => ?_, exec_frameTelemetry_refused s⟩
  have hexec := exec_frameTelemetry_of_length s hw
  refine ⟨hexec.trans (execAll_rxBytes w s).symm, (s.syn.rxBytes Config.params w).1, (s.syn.rxBytes Config.params w).2, ?_⟩
  rw [hexec, State.rxChunk_eq]

/-- Settles O41: `State.rxByte_cases`. -/
theorem oneEventExactlyAtAMatch : Obligations.OneEventExactlyAtAMatch := by
  intro b s
  obtain ⟨hne, h⟩ | ⟨hmatch, h⟩ := s.rxByte_cases Config.params b
  · refine ⟨_, [], exec_rxByte s b, ?_, fun heq => absurd heq hne, fun _ => rfl⟩
    rw [h, State.setSyn_evPending, List.append_nil]
  · refine ⟨_, [(s.syn.shiftIn b).matchEvent], exec_rxByte s b, ?_, fun _ => rfl, fun hne => absurd hmatch hne⟩
    rw [h, State.raise_evPending, State.setSyn_evPending]

end Sys2Proof.Machine
end

section
/-!
The byte-pair swapper, the validator and the wire-format rows, each operation's outcome in the words of the spec (R102, R150
to R153, R160 to R164, R171).
-/

namespace Sys2Proof.Machine

/-! ### The swapper -/

theorem swapPairs_swapPairs : ∀ {x : List Byte}, x.length % 2 = 0 → swapPairs (swapPairs x) = x
  | [], _ => rfl
  | [_], h => absurd h (by simp)
  | a :: b :: rest, h => by
    have hrest : rest.length % 2 = 0 := by rw [List.length_cons, List.length_cons] at h; omega
    rw [swapPairs_cons, swapPairs_cons, swapPairs_swapPairs hrest]

/-- A list of even length ends at a pair's end, so the pairs after it are those of the rest. -/
theorem swapPairs_append : ∀ {x : List Byte}, x.length % 2 = 0 → ∀ y, swapPairs (x ++ y) = swapPairs x ++ swapPairs y
  | [], _, _ => rfl
  | [_], h, _ => absurd h (by simp)
  | a :: b :: rest, h, y => by
    have hrest : rest.length % 2 = 0 := by rw [List.length_cons, List.length_cons] at h; omega
    rw [List.cons_append, List.cons_append, swapPairs_cons, swapPairs_cons, swapPairs_append hrest, List.cons_append,
      List.cons_append]

/-- Settles O26: pair by pair, and the length from O25. -/
theorem swapPairsIsAnInvolution : Obligations.SwapPairsIsAnInvolution :=
  ⟨fun x hx => ⟨swapPairs_swapPairs (swapDomain_iff.mp hx).1, (swapPairsExchangesEachPair x hx).1⟩,
    fun _ y hx _ => swapPairs_append hx y⟩

theorem swapDomain_iff_ne_nil {s : List Byte} : swapDomain s = true ↔ s.length % 2 = 0 ∧ s ≠ [] := by
  rw [swapDomain_iff, ne_eq, List.length_eq_zero_iff]

/-- Settles O27: the refusal of R152 is of the lists outside the domain. -/
theorem swpGivesTheSwappedBytes : Obligations.SwpGivesTheSwappedBytes := by
  refine fun bs s => ⟨fun h => exec_swp_of_domain s (swapDomain_iff_ne_nil.mpr h), fun h => exec_swp_refused s ?_⟩
  rw [← swapDomain_iff_ne_nil, Bool.not_eq_true] at h
  exact h

/-! ### The validator -/

/-- Settles O29: the verdict is by the comparison of R160. -/
theorem valReportsTheVerdict : Obligations.ValReportsTheVerdict := by
  refine fun n s => ⟨fun hn => ?_, exec_val_refused s⟩
  rw [exec_val_of_length s hn, verdict, validate]
  simp only [beq_iff_eq]
  rfl

/-- Settles O30: `validate_swapPairs_iff`, its CRC written as the fold it is, and `decodeTelemetry_swapPairs`. -/
theorem verdictOnTheWireFrame : Obligations.VerdictOnTheWireFrame := fun _ hw =>
  ⟨validate_swapPairs_iff hw, decodeTelemetry_swapPairs hw⟩

/-! ### The command frame rows -/

/-- Settles O34: row and operation emit the same frame, whose eight bytes `length_frameBytes` counts. -/
theorem motorRowsAreTxMotor : Obligations.MotorRowsAreTxMotor := by
  intro s
  have hrow : ∀ {i : Instr} {sel : Nat}, exec i s = .next (s.emit (motorFrame Config.params sel)) →
      ∃ bs : List TxByte, bs.length = 8 ∧ exec i s = .next { s with txPending := s.txPending ++ bs } :=
    fun h => ⟨_, by rw [length_frameBytes, length_motorFrame], h⟩
  refine ⟨(exec_txMotor_of_lt s (by decide)).symm, (exec_txMotor_of_lt s (by decide)).symm,
    (exec_txMotor_of_lt s (by decide)).symm, (exec_txMotor_of_lt s (by decide)).symm, ?_⟩
  simp only [List.forall_mem_cons]
  exact ⟨hrow (exec_motorBrake s), hrow (exec_motorStop s), hrow (exec_motorCcw s), hrow (exec_motorCw s), List.forall_mem_nil _⟩

/-- Settles O35: a byte is its own remainder, so row and operation emit the same thirteen bytes. -/
theorem pixelRowIsTxPixel : Obligations.PixelRowIsTxPixel := by
  refine fun l st n r g b s => ⟨?_, _, ?_, exec_framePixel s l st n r g b⟩
  · simp only [exec_framePixel, exec_txPixel, State.txPixel, truncByte_toNat]
  · rw [length_frameBytes, length_pixelFrame]

end Sys2Proof.Machine
end

section
/-!
The constants and the ports: `PIXEL_OPCODE` (R95, D23), the payload of the waiting event on its port (R48, R201), and the
operation vector by the match and mask of each row of the opcode table (R88).
-/

namespace Sys2Proof.Machine

/-! ### `PIXEL_OPCODE` -/

theorem toNat_skipMotorOpcode (k : Fin 255) :
    (Config.skipMotorOpcode k).toNat = if k.val < 0x43 then k.val else k.val + 1 := by
  have hk := k.isLt
  unfold Config.skipMotorOpcode
  split_ifs <;> rw [BitVec.toNat_ofNat] <;> omega

theorem skipMotorOpcode_ne (k : Fin 255) : Config.skipMotorOpcode k ≠ motorOpcode := by
  intro h
  have hnat := congrArg BitVec.toNat h
  rw [toNat_skipMotorOpcode, BitVec.toNat_ofNat] at hnat
  split_ifs at hnat <;> omega

/-- Settles O56: `skipMotorOpcode` counts the bytes below 0x43 and goes on above it. -/
theorem pixelOpcodeIsAnyButTheMotorOpcode : Obligations.PixelOpcodeIsAnyButTheMotorOpcode := by
  refine ⟨bne_iff_ne.mpr (skipMotorOpcode_ne _), fun b hb => ?_⟩
  have hlt := b.isLt
  have hne : b.toNat ≠ 0x43 := fun h => hb (BitVec.eq_of_toNat_eq h)
  by_cases hbelow : b.toNat < 0x43
  · exact ⟨⟨b.toNat, by omega⟩, BitVec.eq_of_toNat_eq (by rw [toNat_skipMotorOpcode, if_pos hbelow])⟩
  · refine ⟨⟨b.toNat - 1, by omega⟩, BitVec.eq_of_toNat_eq ?_⟩
    rw [toNat_skipMotorOpcode, if_neg (by simp only; omega)]
    simp only
    omega

/-! ### The event ports -/

theorem getD_bytesOfNat : ∀ (n w i : Nat), i < n → (bytesOfNat n w).getD i 0#8 = BitVec.ofNat 8 (w / 256 ^ i)
  | 0, _, i, hi => absurd hi (Nat.not_lt_zero i)
  | n + 1, w, 0, _ => by simp [bytesOfNat]
  | n + 1, w, i + 1, hi => by
    rw [bytesOfNat, List.getD_cons_succ, getD_bytesOfNat n _ i (by omega), Nat.div_div_eq_div_mul, Nat.pow_succ']

/-- Byte `i` of a packed port is bits `8i+7` to `8i` (R48). -/
theorem extractLsb'_packBytes {l : List Byte} (hl : l.length = 24) {i : Nat} (hi : i < 24) :
    (packBytes l).extractLsb' (8 * i) 8 = l.getD i 0#8 := by
  have hpow : 2 ^ (8 * i) = 256 ^ i := pow_mul 2 8 i
  conv_rhs => rw [← valFrameBytes_packBytes hl, valFrameBytes, getD_bytesOfNat _ _ _ hi, ← hpow, ← Nat.shiftRight_eq_div_pow]
  rfl

theorem natOfWords_lt : ∀ ws : List Word16, natOfWords ws < 65536 ^ ws.length
  | [] => by simp [natOfWords]
  | w :: ws => by
    have hw := w.isLt
    have hws := natOfWords_lt ws
    simp only [natOfWords, List.length_cons, Nat.pow_succ]
    omega

theorem ofNat_natOfWords_div : ∀ (ws : List Word16) (k : Nat), BitVec.ofNat 16 (natOfWords ws / 65536 ^ k) = ws.getD k 0#16
  | [], k => by simp [natOfWords]
  | w :: ws, 0 => by
    have hw := w.isLt
    apply BitVec.eq_of_toNat_eq
    simp only [natOfWords, Nat.pow_zero, Nat.div_one, BitVec.toNat_ofNat, List.getD_cons_zero]
    omega
  | w :: ws, k + 1 => by
    have hw := w.isLt
    have hdiv : natOfWords (w :: ws) / 65536 = natOfWords ws := by rw [natOfWords]; omega
    rw [Nat.pow_succ', ← Nat.div_div_eq_div_mul, hdiv, ofNat_natOfWords_div ws k, List.getD_cons_succ]

/-- Word `k` of a packed port is bits `16k+15` to `16k` (R48). -/
theorem extractLsb'_packWords {ws : List Word16} (hws : ws.length = 10) (k : Nat) :
    (packWords ws).extractLsb' (16 * k) 16 = ws.getD k 0#16 := by
  have hpow : 2 ^ (16 * k) = 65536 ^ k := pow_mul 2 16 k
  have hlt : natOfWords ws < 2 ^ 160 := by
    have h := natOfWords_lt ws
    rwa [hws] at h
  rw [← ofNat_natOfWords_div, ← hpow, ← Nat.shiftRight_eq_div_pow, ← Nat.mod_eq_of_lt hlt]
  rfl

/-- Settles O55: the ports show the first waiting event, its payload packed. -/
theorem eventPortsCarryTheEvent : Obligations.EventPortsCarryTheEvent := by
  intro s rest
  refine ⟨fun t hev => ?_, fun raw hev hraw => ?_, fun n hev => ?_, fun hev => ?_⟩
  · simp only [State.outputPorts, hev]
    exact ⟨rfl, rfl, rfl, rfl, _, rfl, fun k _ => extractLsb'_packWords rfl k⟩
  · simp only [State.outputPorts, hev]
    exact ⟨rfl, rfl, rfl, rfl, _, rfl, fun i hi => extractLsb'_packBytes hraw hi⟩
  · simp only [State.outputPorts, hev]
    exact ⟨rfl, rfl, rfl, rfl, rfl⟩
  · simp only [State.outputPorts, hev]
    exact ⟨rfl, rfl⟩

end Sys2Proof.Machine

namespace Sys2Proof

open Sys2Proof.Machine

/-! ### The operation vector -/

/-- Settles O44, word by word. -/
theorem specWordsDecode : Obligations.SpecWordsDecode := by
  refine ⟨?_, ?_, ?_, ?_, ?_, ?_, ?_, ?_, ?_⟩
  all_goals decide +kernel

section Membership

variable {v : BitVec 10} {o : PortOperands} {i : Instr}

@[simp] theorem mem_decodeCrcBits_iff : i ∈ decodeCrcBits v o ↔ (v.getLsbD 8 = true ∧ i = .crcInit) ∨
    (v.getLsbD 8 = false ∧ v.getLsbD 7 = true ∧ i = .crcUpd o.crcByte) ∨
    (v.getLsbD 8 = false ∧ v.getLsbD 6 = true ∧ i = .crcUpdm o.crcByte) := by
  unfold decodeCrcBits
  cases v.getLsbD 8 <;> cases v.getLsbD 7 <;> cases v.getLsbD 6 <;> simp

@[simp] theorem mem_decodeSynBits_iff : i ∈ decodeSynBits v o ↔ (v.getLsbD 5 = true ∧ i = .rxClr) ∨
    (v.getLsbD 5 = false ∧ v.getLsbD 4 = true ∧ i = .rxByte o.rxByte) := by
  unfold decodeSynBits
  cases v.getLsbD 5 <;> cases v.getLsbD 4 <;> simp

@[simp] theorem mem_decodeSwpBit_iff : i ∈ decodeSwpBit v o ↔ v.getLsbD 3 = true ∧ i = .swp [o.swpA, o.swpB] := by
  unfold decodeSwpBit
  cases v.getLsbD 3 <;> simp

@[simp] theorem mem_decodeValBit_iff : i ∈ decodeValBit v o ↔ v.getLsbD 2 = true ∧ i = .val (valFrameBytes o.valFrame) := by
  unfold decodeValBit
  cases v.getLsbD 2 <;> simp

@[simp] theorem mem_decodeEncBits_iff : i ∈ decodeEncBits v o ↔ (v.getLsbD 1 = true ∧ i = .txMotor o.txmSel.toNat) ∨
    (v.getLsbD 1 = false ∧ v.getLsbD 0 = true ∧ i = .txPixel o.txpStart.toNat o.txpCount.toNat o.txpRed.toNat
      o.txpGreen.toNat o.txpBlue.toNat o.txpStriplen.toNat) := by
  unfold decodeEncBits
  cases v.getLsbD 1 <;> cases v.getLsbD 0 <;> simp

/-- An operation fires by the bits of one of the five units (R88). -/
theorem mem_decodeUnits_iff : i ∈ decodeUnits v o ↔
    i ∈ decodeCrcBits v o ∨ i ∈ decodeSynBits v o ∨ i ∈ decodeSwpBit v o ∨ i ∈ decodeValBit v o ∨ i ∈ decodeEncBits v o := by
  simp only [decodeUnits, List.mem_append, or_assoc]

/-- No unit fires when every bit below bit 9 is clear. -/
theorem decodeUnits_eq_nil_iff : decodeUnits v o = [] ↔ v.getLsbD 8 = false ∧ v.getLsbD 7 = false ∧ v.getLsbD 6 = false ∧
    v.getLsbD 5 = false ∧ v.getLsbD 4 = false ∧ v.getLsbD 3 = false ∧ v.getLsbD 2 = false ∧ v.getLsbD 1 = false ∧
    v.getLsbD 0 = false := by
  have hcrc : decodeCrcBits v o = [] ↔ v.getLsbD 8 = false ∧ v.getLsbD 7 = false ∧ v.getLsbD 6 = false := by
    unfold decodeCrcBits
    cases v.getLsbD 8 <;> cases v.getLsbD 7 <;> cases v.getLsbD 6 <;> simp
  have hsyn : decodeSynBits v o = [] ↔ v.getLsbD 5 = false ∧ v.getLsbD 4 = false := by
    unfold decodeSynBits
    cases v.getLsbD 5 <;> cases v.getLsbD 4 <;> simp
  have hswp : decodeSwpBit v o = [] ↔ v.getLsbD 3 = false := by
    unfold decodeSwpBit
    cases v.getLsbD 3 <;> simp
  have hval : decodeValBit v o = [] ↔ v.getLsbD 2 = false := by
    unfold decodeValBit
    cases v.getLsbD 2 <;> simp
  have henc : decodeEncBits v o = [] ↔ v.getLsbD 1 = false ∧ v.getLsbD 0 = false := by
    unfold decodeEncBits
    cases v.getLsbD 1 <;> cases v.getLsbD 0 <;> simp
  simp only [decodeUnits, List.append_eq_nil_iff, hcrc, hsyn, hswp, hval, henc, and_assoc]

theorem rst_mem_decodeOpv_iff : Instr.rst ∈ decodeOpv v o ↔ v.getLsbD 9 = true := by
  cases hrst : v.getLsbD 9 with
  | true => simp [decodeOpv_of_bit9 hrst]
  | false =>
    by_cases hunits : decodeUnits v o = []
    · simp [decodeOpv_of_decodeUnits_eq_nil hrst hunits]
    · simp [decodeOpv_of_decodeUnits_ne_nil hrst hunits, mem_decodeUnits_iff]

theorem nop_mem_decodeOpv_iff : Instr.nop ∈ decodeOpv v o ↔ v.getLsbD 9 = false ∧ decodeUnits v o = [] := by
  cases hrst : v.getLsbD 9 with
  | true => simp [decodeOpv_of_bit9 hrst]
  | false =>
    by_cases hunits : decodeUnits v o = []
    · simp [decodeOpv_of_decodeUnits_eq_nil hrst hunits, hunits]
    · simp [decodeOpv_of_decodeUnits_ne_nil hrst hunits, mem_decodeUnits_iff, hunits]

end Membership

/-- A vector matches a row exactly when each bit of the mask has the match's value, bit 9 first as in R88. -/
theorem masked_eq_iff (v m x : BitVec 10) : v &&& m = x ↔
    (v.getLsbD 9 && m.getLsbD 9) = x.getLsbD 9 ∧ (v.getLsbD 8 && m.getLsbD 8) = x.getLsbD 8 ∧ (v.getLsbD 7 &&
    m.getLsbD 7) = x.getLsbD 7 ∧ (v.getLsbD 6 && m.getLsbD 6) = x.getLsbD 6 ∧ (v.getLsbD 5 && m.getLsbD 5) = x.getLsbD
    5 ∧ (v.getLsbD 4 && m.getLsbD 4) = x.getLsbD 4 ∧ (v.getLsbD 3 && m.getLsbD 3) = x.getLsbD 3 ∧ (v.getLsbD 2 &&
    m.getLsbD 2) = x.getLsbD 2 ∧ (v.getLsbD 1 && m.getLsbD 1) = x.getLsbD 1 ∧ (v.getLsbD 0 && m.getLsbD 0) = x.getLsbD
    0 := by
  constructor
  · rintro rfl
    simp only [BitVec.getLsbD_and, and_self]
  · rintro ⟨h9, h8, h7, h6, h5, h4, h3, h2, h1, h0⟩
    refine BitVec.eq_of_getLsbD_eq fun i hi => ?_
    rw [BitVec.getLsbD_and]
    interval_cases i <;> assumption

/-- Settles O42: the bits that select an operation are those its row's mask keeps, at the values of the row's match. -/
theorem operationVectorSelectsByTable : Obligations.OperationVectorSelectsByTable := by
  intro v o
  refine ⟨?rst, ?nop, ?_, ?_, ?_, ?_, ?_, ?_, ?_, ?_, ?_⟩
  case rst => simp [rst_mem_decodeOpv_iff, masked_eq_iff]
  case nop => simp [nop_mem_decodeOpv_iff, decodeUnits_eq_nil_iff, masked_eq_iff]
  all_goals
    rw [mem_decodeOpv_iff Instr.noConfusion Instr.noConfusion]
    simp [mem_decodeUnits_iff, masked_eq_iff]

end Sys2Proof
end
